-- ==== Sys2Proof/Word.lean ====
section
/-! DEFINITION. The widths of the bridge (R8): bytes, words, nibbles and single lines. -/

namespace Sys2Proof

/-- A bus data byte, an LCD byte or a text-buffer entry (R8). -/
abbrev Byte := BitVec 8

/-- A request word or a response word (R8, R70, R80). -/
abbrev Word := BitVec 16

/-- Half of an LCD byte (R8, R27). -/
abbrev Nibble := BitVec 4

/-- One line of the pin map, 0 or 1 (R27). -/
abbrev Line := BitVec 1

end Sys2Proof
end

