-- ==== Sys2Proof/Syntax.lean ====
section
/-! DEFINITION. The bridge request set, version 1 (R3, R72): one constructor per row of opcode_table.json. -/

namespace Sys2Proof

/-- A request (R72) with its operands (R71, R79). Operand widths are in the types; the one field whose value a request
can carry and the bridge must refuse, RW of format FS8 (R76), is kept as an operand and checked by `Instr.wellFormed`. -/
inductive Instr where
  /-- Transfer one byte to the instruction (RS = 0) or data (RS = 1) register (R123). -/
  | send8 (rw rs : Line) (value : Byte)
  /-- Function set (R131). -/
  | fnset
  /-- Display on (R132). -/
  | dispon
  /-- Display off (R133). -/
  | dispoff
  /-- Clear display (R134). -/
  | clear
  /-- Entry mode set (R135). -/
  | entry
  /-- Return home (R136). -/
  | home
  /-- Set DDRAM address (R137). -/
  | setddram (addr : BitVec 7)
  /-- Backlight on (R150). -/
  | blon
  /-- Backlight off (R151). -/
  | bloff
  /-- Run the 4-bit power-up handshake (R160). -/
  | init
  /-- Load one byte into the text buffer (R180). -/
  | ldtxt (idx : BitVec 4) (byte : Byte)
  /-- Send the text buffer to the display (R181). -/
  | print
  /-- Read the status byte (R190). -/
  | status
  deriving DecidableEq, Repr

end Sys2Proof
end

