-- ==== Sys2Proof/WellFormed.lean ====
section
/-! DEFINITION. Which requests are legal as operands: R76 is the only check the operand widths do not already make. -/

namespace Sys2Proof

/-- RW must be 0, "write-only is the only supported direction" (R76). Every other operand value is legal (R73, R79). -/
def Instr.wellFormed (i : Instr) : Bool :=
  match i with
  | .send8 rw _ _ => rw == 0
  | .fnset => true
  | .dispon => true
  | .dispoff => true
  | .clear => true
  | .entry => true
  | .home => true
  | .setddram _ => true
  | .blon => true
  | .bloff => true
  | .init => true
  | .ldtxt _ _ => true
  | .print => true
  | .status => true

end Sys2Proof
end

