-- ==== Sys2Proof/Decode.lean ====
section
/-! DEFINITION. The request word: its fields (R70, R71, R79), the total decoder that rejects by name (R73 to R78, R201),
and the encoder written from the same formats (R71, R72, R85). -/

namespace Sys2Proof

/-- Why a request word is ILLEGAL: R201's three causes, "the only causes". -/
inductive Illegal where
  /-- Opcode 0x0 or 0x2 (R74). -/
  | reservedOpcode
  /-- A bit marked "reserved, must be 0" is 1 (R75). -/
  | reservedBits
  /-- A SEND8 word with RW = 1 (R76). -/
  | readRequested
  deriving DecidableEq, Repr

/-- `OP`, bits 15:12 of the request word (R70). -/
def opField (w : Word) : BitVec 4 := w.extractLsb' 12 4

/-- A format F0 word (R71): bits 11:0 are reserved and must be 0 (R75). -/
def decodeF0 (i : Instr) (w : Word) : Except Illegal Instr :=
  if w.extractLsb' 0 12 = 0 then .ok i else .error .reservedBits

/-- A format FS8 word (R71): bits 11:10 reserved, bit 9 RW, bit 8 RS, bits 7:0 VALUE. -/
def decodeFS8 (w : Word) : Except Illegal Instr :=
  if w.extractLsb' 10 2 = 0 then
    if w.extractLsb' 9 1 = 0 then .ok (.send8 0 (w.extractLsb' 8 1) (w.extractLsb' 0 8))
    else .error .readRequested
  else .error .reservedBits

/-- A format FDD word (R71): bits 11:7 reserved, bits 6:0 ADDR. -/
def decodeFDD (w : Word) : Except Illegal Instr :=
  if w.extractLsb' 7 5 = 0 then .ok (.setddram (w.extractLsb' 0 7)) else .error .reservedBits

/-- A format FLT word (R71): bits 11:8 IDX, bits 7:0 BYTE; every operand is legal. -/
def decodeFLT (w : Word) : Except Illegal Instr :=
  .ok (.ldtxt (w.extractLsb' 8 4) (w.extractLsb' 0 8))

/-- The opcode map of R72. Total (R73); the two opcodes with no row, 0x0 and 0x2, are reserved (R74). -/
def decode (w : Word) : Except Illegal Instr :=
  match (opField w).toNat with
  | 0x1 => decodeFS8 w
  | 0x3 => decodeF0 .fnset w
  | 0x4 => decodeF0 .dispon w
  | 0x5 => decodeF0 .dispoff w
  | 0x6 => decodeF0 .clear w
  | 0x7 => decodeF0 .entry w
  | 0x8 => decodeF0 .home w
  | 0x9 => decodeFDD w
  | 0xA => decodeF0 .blon w
  | 0xB => decodeF0 .bloff w
  | 0xC => decodeF0 .init w
  | 0xD => decodeFLT w
  | 0xE => decodeF0 .print w
  | 0xF => decodeF0 .status w
  | _ => .error .reservedOpcode

/-- The legality test of R73, as the rule writes it. -/
def legal (w : Word) : Bool :=
  match (w.extractLsb' 12 4).toNat with
  | 0x0 | 0x2 => false
  | 0x1 => w.extractLsb' 10 2 == 0 && w.extractLsb' 9 1 == 0
  | 0x9 => w.extractLsb' 7 5 == 0
  | 0xD => true
  | _ => w.extractLsb' 0 12 == 0

/-- The word of a request, laid out by the formats of R71 with the opcodes of R72. -/
def encode (i : Instr) : Word :=
  match i with
  | .send8 rw rs v => 0x1#4 ++ 0#2 ++ rw ++ rs ++ v
  | .fnset => 0x3#4 ++ 0#12
  | .dispon => 0x4#4 ++ 0#12
  | .dispoff => 0x5#4 ++ 0#12
  | .clear => 0x6#4 ++ 0#12
  | .entry => 0x7#4 ++ 0#12
  | .home => 0x8#4 ++ 0#12
  | .setddram a => 0x9#4 ++ 0#5 ++ a
  | .blon => 0xA#4 ++ 0#12
  | .bloff => 0xB#4 ++ 0#12
  | .init => 0xC#4 ++ 0#12
  | .ldtxt i b => 0xD#4 ++ i ++ b
  | .print => 0xE#4 ++ 0#12
  | .status => 0xF#4 ++ 0#12

/-- What the decoder reads from an instruction of `nbits` bits whose value is `w`. A request is exactly one 16-bit word
(R78), so `w` must fit the bits it is said to have, and those must fit one word. -/
def decodeTableWord (nbits w : Nat) : Option Instr :=
  if nbits ≤ 16 ∧ w < 2 ^ nbits then
    match decode (BitVec.ofNat 16 w) with
    | .ok i => some i
    | .error _ => none
  else none

end Sys2Proof
end

