-- ==== Sys2Proof/Config.lean ====
section
/-! DEFINITION. The implementation parameters of R7, and the values the spec leaves open (93_implementation_defined.md)
as constants with no body: nothing in Lean can learn what they are. -/

namespace Sys2Proof

/-- The bus's answer to one transport write (R7 `BusAns`, R101): it completed, it did not, or no answer ever comes. -/
inductive BusAnswer where
  | ok
  | fail
  | never
  deriving DecidableEq, Repr, Inhabited

/-- A latch event `L(rs, rw, n)` of the controller (R108). -/
structure Latch where
  rs : Line
  rw : Line
  nibble : Nibble
  deriving DecidableEq, Repr

namespace Config

/-- The parameters of R7 that have a value, which "a model takes each as an argument": a field of the machine's state holds
them (`State.params`), and no step changes them. -/
structure Params where
  /-- `SLAVE_ADDR`, the 7-bit I2C address of the expander. -/
  slaveAddr : BitVec 7
  /-- `T_PWR_US`, INIT step 1, power-on settle wait. -/
  tPwrUs : Nat
  /-- `T_F1_US`, the wait after the first forced nibble. -/
  tF1Us : Nat
  /-- `T_F2_US`, the wait after the second forced nibble. -/
  tF2Us : Nat
  /-- `T_CMD_US`, the post-delay of function-set, display on, display off, entry-mode-set and set DDRAM address. -/
  tCmdUs : Nat
  /-- `T_HOME_US`, the post-delay of return home. -/
  tHomeUs : Nat
  /-- `T_CLEAR_US`, the post-delay of clear display (R134, C3). -/
  tClearUs : Nat
  /-- `TEXT_LEN`, bytes in the text buffer (R33): at most 16, since an index is 4 bits (R51; log entry 10). -/
  textLen : Fin 17
  deriving DecidableEq, Repr

/-- The values "this hardware takes" (R7); the compatibility configuration has `tClearUs := 0` (R134). -/
def hardware : Params where
  slaveAddr := 0x27
  tPwrUs := 15000
  tF1Us := 4100
  tF2Us := 100
  tCmdUs := 37
  tHomeUs := 1520
  tClearUs := 1520
  textLen := 16

/-- `P_RESET`: the expander's output byte before the bridge's first write. OPEN (R7, R37, U3): any byte. -/
opaque pReset : Byte

/-- `BusAns`: the bus's answer to the write that reads free value number `n`. OPEN (R7, U4). -/
opaque busAnswer : Nat → BusAnswer

/-- The expander pins after a write that was not answered `ok`: any byte (R37, U1, U13). -/
opaque pinsAny : Nat → Byte

/-- Whether a write that was not answered `ok` made a latch, and of what: anything (R108, U2, U13). -/
opaque latchAny : Nat → Option Latch

/-- The gap in µs between two events with no delay between them: no bound either way (R250, U6). -/
opaque gapUs : Nat → Nat

/-- The duration in µs of a write transaction: no bound either way (R250, U6). -/
opaque writeUs : Nat → Nat

/-- The excess in µs of a delay over its lower bound (R250, U6). -/
opaque excessUs : Nat → Nat

/-- The register-select of a pair of latches `a`, `b` that differ in it, the `n`th pair: R109 says "the register-select of
the pair" and does not say whose. -/
opaque mixedRs : Nat → Latch → Latch → Line

/-- `F_SCL`: the I2C clock frequency. OPEN (R7, U7): no rule depends on it, and nothing in the model reads it. -/
opaque fScl : Nat

end Config
end Sys2Proof
end

