-- ==== Sys2Proof/Machine/State.lean ====
section
/-! DEFINITION. The state of the bridge (R24, R230), of the expander latch its writes set (R37), and of what the
environment still has to give it (the host's requests, the bus's answers, the reset input); the observable event
sequence (R11); and the state after reset. -/

namespace Sys2Proof.Machine

/-- Memory as a list of cells in one canonical form (`Memory.wf`, Machine/Ops.lean): addresses strictly rising, no
cell equal to what an unlisted address reads as. It holds the text buffer `TEXT`, the only space the bridge reads
(R50, R51). -/
abbrev Memory := List Host.Cell

/-- The sequencer's control state `SEQ` (R34): IDLE, or BUSY with the accepted request word. A request runs to its
response in one step, so BUSY is seen between steps only at a write the bus never answers (R246): that write is the
position inside the request. -/
inductive Seq where
  | idle
  | busy (w : Word)
  deriving DecidableEq, Repr

/-- How a write transaction ended: answered `ok`, answered `fail` (R101), never answered (R246), or cut off by the reset
input while in progress (R232). -/
inductive WriteEnd where
  | ok
  | fail
  | unanswered
  | cut
  deriving DecidableEq, Repr

/-- The observable events of R11. `reset` is the model's own mark of where the reset input took effect (log entry 6);
without it the sequence is R11's. -/
inductive Event where
  /-- `REQ(w)`: a request word accepted from the host. -/
  | req (w : Word)
  /-- `W(b)`: one write transaction of data byte b to a target address (R103), with how it ended. -/
  | write (addr : BitVec 7) (b : Byte) (e : WriteEnd)
  /-- `D(t)`: a wait of at least t µs. DESIGN CHOICE (log entry 20): a wait that reset cuts short leaves none. -/
  | delay (t : Nat)
  /-- `RSP(r)`: a response word returned to the host. -/
  | rsp (r : Word)
  | reset
  deriving DecidableEq, Repr

/-- An event with the times, in µs, at which it began and ended (R250). -/
structure Timed where
  event : Event
  start : Nat
  stop : Nat
  deriving DecidableEq, Repr

/-- Why the model reports a fault. The bridge itself never faults: every error is a response (R200, R208). -/
inductive Fault where
  /-- A response word with `CODE = 0b11` or a bit of 7:2 set was received (R80, U10). Raised by `readResponse`
  (Machine/Flags.lean), the host's reading of a response word. Safe: the bridge never produces such a word. -/
  | reservedResponse
  deriving DecidableEq, Repr

/-- Why an instruction has no meaning. -/
inductive Refusal where
  /-- The instruction is not modelled. Raised by no arm: every request has its meaning. Safe. -/
  | notModelled (mnemonic : String)
  deriving DecidableEq, Repr

/-- The state of the machine: what the spec gives it, and the model's own two counters `free` and `now`. -/
structure State where
  /-- `BL`, the backlight flag (R24, R25). -/
  bl : Bool
  /-- `INIT_STATE`, 4 bits (R24, R31). -/
  initState : BitVec 4
  /-- `INIT_ERR` (R24, R32). -/
  initErr : Bool
  /-- `TEXT[0..15]` (R24, R33). -/
  text : Memory
  /-- `SEQ` (R24, R34). -/
  seq : Seq
  /-- The delay timer: idle, or holding the bridge for at least so many µs (R213, R230). -/
  timer : Option Nat
  /-- The implementation parameters (R7). No step changes them (log entry 10). -/
  params : Config.Params
  /-- `P`, the expander's output latch (R37). -/
  pins : Byte
  /-- The host request port (R21): the words the host presents, the one on the port first. -/
  requests : List Word
  /-- The reset input (R23): for each assertion, how many opportunities pass before it takes effect (log entry 5). -/
  resets : List Nat
  /-- The bus's next answers, first first (R7 `BusAns`); after the last one the open constant `Config.busAnswer`
  answers. -/
  answers : List BusAnswer
  /-- The model's own counter of free values read so far (log entry 2). -/
  free : Nat
  /-- The time in µs at which the last event ended (R250). -/
  now : Nat
  /-- The event sequence so far, oldest first (R11). -/
  log : List Timed
  /-- The latch events of the controller so far, oldest first (R108): an observation, read by no rule of the bridge. -/
  latches : List Latch
  deriving DecidableEq, Repr

/-- The bridge right after reset (R24, R230), before the bridge's first write and with nothing presented to it. -/
def State.reset : State where
  bl := true
  initState := 0
  initErr := false
  text := []
  seq := .idle
  timer := none
  params := Config.hardware
  pins := Config.pReset
  requests := []
  resets := []
  answers := []
  free := 0
  now := 0
  log := []
  latches := []

/-- The events of a state without their times. -/
def State.events (s : State) : List Event := s.log.map Timed.event

end Sys2Proof.Machine
end

