-- ==== Sys2Proof/Machine/Flags.lean ====
section
/-! DEFINITION. The status byte (R39), the response word and its codes (R80), and the latch rule (R30, R108). The bridge
has no condition codes (R36). -/

namespace Sys2Proof.Machine

/-- `CODE` of a response (R80, R200). -/
inductive Code where
  | ok
  | fail
  | illegal
  deriving DecidableEq, Repr

/-- The two bits of `CODE` (R80). -/
def Code.bits (c : Code) : BitVec 2 :=
  match c with
  | .ok => 0b00
  | .fail => 0b01
  | .illegal => 0b10

/-- The response word `r = (DATA, 0b000000, CODE)` (R80). -/
def responseWord (c : Code) (data : Byte) : Word := data ++ 0#6 ++ c.bits

/-- The host's reading of a response word: code and data. A word the bridge never produces is a fault (R80, U10). -/
def readResponse (r : Word) : Except Fault (Code × Byte) :=
  if r.extractLsb' 2 6 = 0 then
    if r.extractLsb' 0 2 = 0b00 then .ok (.ok, r.extractLsb' 8 8)
    else if r.extractLsb' 0 2 = 0b01 then .ok (.fail, r.extractLsb' 8 8)
    else if r.extractLsb' 0 2 = 0b10 then .ok (.illegal, r.extractLsb' 8 8)
    else .error .reservedResponse
  else .error .reservedResponse

/-- The code that reports a request's result: OK when every write was answered `ok`, FAIL otherwise (R80). -/
def Code.ofResult (r : Bool) : Code := if r then .ok else .fail

/-- The status byte `ST = (0b00, BL, INIT_ERR, INIT_STATE)` (R39). -/
def statusByte (s : State) : Byte :=
  0#2 ++ BitVec.ofBool s.bl ++ BitVec.ofBool s.initErr ++ s.initState

/-- The latch event of a write of `b` answered `ok` with the pins at `p` before it: on a falling edge of enable, and only
then (R30, R108). -/
def latchOf (p b : Byte) : Option Latch :=
  if b.getLsbD 2 = false ∧ p.getLsbD 2 = true then
    some ⟨b.extractLsb' 0 1, b.extractLsb' 1 1, b.extractLsb' 4 4⟩
  else none

end Sys2Proof.Machine
end

