-- ==== Sys2Proof/Machine/Operands.lean ====
section
/-! DEFINITION. Operand assembly: the frames of the nibble framer (R120, R122), the LCD bytes of the command set (R79,
R83), and the two shapes of a bus byte (R82). -/

namespace Sys2Proof.Machine

/-- The control bits of a frame: bit 0 RS, bit 1 RW (R120). -/
def ctl (rs rw : Line) : Byte := rs.setWidth 8 ||| (rw.setWidth 8 <<< 1)

/-- The high-nibble frame: v[7:4] in bits 7:4 (R120). -/
def frameHi (rs rw : Line) (v : Byte) : Byte := (v &&& 0xF0) ||| ctl rs rw

/-- The low-nibble frame: v[3:0] in bits 7:4 (R120). -/
def frameLo (rs rw : Line) (v : Byte) : Byte := ((v &&& 0x0F) <<< 4) ||| ctl rs rw

/-- The frame of a forced nibble: RS and RW off (R122). -/
def frameForced (n : Nibble) : Byte := n.setWidth 8 <<< 4

/-- The LCD byte of SETDDRAM, `0x80 | zext8(ADDR)` (R79, R137). -/
def ddramByte (addr : BitVec 7) : Byte := 0x80 ||| addr.setWidth 8

/-- The enable bit of a bus byte (R27). -/
def enBit : Byte := 0x04

/-- The backlight bit of a bus byte, `BL ? 0x08 : 0x00` (R26). -/
def blBit (bl : Bool) : Byte := if bl then 0x08 else 0x00

end Sys2Proof.Machine
end

