-- ==== Sys2Proof/Machine/Ops.lean ====
section
/-! DEFINITION. The named operations: the text buffer (R51), the reset input (R23, R230, R232), the pseudocode
primitives of R10 (transport write, delay, response, raise ILLEGAL), and the helpers every request is built from
(strobe, send8, send4f, cmd, apply). -/

namespace Sys2Proof.Machine

/-! ### The text buffer -/

/-- `MemRead`: the byte at address `a`; an address not listed reads as 0x00, the reset contents (R51, R33). -/
def Memory.read : Memory → Nat → Byte
  | [], _ => 0
  | (k, v) :: m, a => if k = a then v else Memory.read m a

/-- The memory `m` with the byte `v` at `a` in front of every cell of `m`, listed only when it is not 0x00. -/
def Memory.consCell (a : Nat) (v : Byte) (m : Memory) : Memory := if v = 0 then m else (a, v) :: m

/-- `MemWrite`: the byte at address `a` becomes `v` and nothing else changes (R51); the canonical form is kept. -/
def Memory.write : Memory → Nat → Byte → Memory
  | [], a, v => Memory.consCell a v []
  | (k, x) :: m, a, v =>
    if a < k then Memory.consCell a v ((k, x) :: m)
    else if a = k then Memory.consCell a v m
    else (k, x) :: Memory.write m a v

/-- The canonical form from address `lo` on: addresses strictly rising, below 16 (no other index can be formed, R51),
no cell that reads 0x00. -/
def Memory.wfFrom : Nat → Memory → Bool
  | _, [] => true
  | lo, (k, v) :: m => decide (lo ≤ k) && decide (k < 16) && !(v == 0) && Memory.wfFrom (k + 1) m

/-- The canonical form of the text buffer. -/
def Memory.wf (m : Memory) : Bool := Memory.wfFrom 0 m

/-! ### What one operation of a request gives -/

/-- How far a request has come: it goes on with a value, or it goes no further (the bus never answers, R246, or the
reset input took effect, R232). -/
inductive Flow (α : Type) where
  | go (a : α) (s : State)
  | stop (s : State)
  deriving DecidableEq, Repr

/-- Run `k` on what `f` gives, unless the request went no further. -/
def Flow.bind {α β : Type} (f : Flow α) (k : α → State → Flow β) : Flow β :=
  match f with
  | .go a s => k a s
  | .stop s => .stop s

/-- The state `f` ends in, after `k` if the request goes on. -/
def Flow.finish {α : Type} (f : Flow α) (k : α → State → State) : State :=
  match f with
  | .go a s => k a s
  | .stop s => s

/-! ### Events, free values, reset -/

/-- Append an event to the observable sequence (R11); one free value number is used up. -/
def record (e : Event) (start stop : Nat) (s : State) : State :=
  { s with log := s.log ++ [⟨e, start, stop⟩], now := stop, free := s.free + 1 }

/-- When an event with no delay before it begins: any time after the last event ended (R250). -/
def nextStart (s : State) : Nat := s.now + Config.gapUs s.free

/-- One opportunity for the reset input: whether it takes effect here, and the input that is left. -/
def resetTaken (s : State) : Bool × State :=
  match s.resets with
  | [] => (false, s)
  | 0 :: rs => (true, { s with resets := rs })
  | (n + 1) :: rs => (false, { s with resets := n :: rs })

/-- Reset (R230): the bridge's state takes its reset values, and no bus write is made, so the pins keep their value. -/
def takeReset (s : State) : State :=
  record .reset s.now s.now
    { s with bl := true, initState := 0, initErr := false, text := [], seq := .idle, timer := none }

/-- After a write that was not answered `ok`: the pins are any byte (R37), and the controller may have latched
anything or nothing (R108). -/
def disturb (s : State) : State :=
  { s with pins := Config.pinsAny s.free, latches := s.latches ++ (Config.latchAny s.free).toList, free := s.free + 1 }

/-- The host port's acceptance of the request word `w`, the event `REQ(w)` (R21): the sequencer is BUSY with it. -/
def accept (w : Word) (s : State) : State :=
  record (.req w) (nextStart s) (nextStart s) { s with seq := .busy w }

/-- Accept the word on the port; the host then presents its next one (R21, R58). -/
def takeRequest (w : Word) (rest : List Word) (s : State) : State := accept w { s with requests := rest }

/-- A step of a BUSY bridge: it waits for an answer that never comes, and only reset ends that (R246); the write in
flight leaves the pins at any byte (R232). -/
def waitForAnswer (s : State) : State :=
  match resetTaken s with
  | (true, s) => takeReset (disturb s)
  | (false, s) => s

/-! ### The pseudocode primitives of R10 -/

/-- The bus's answer to the next write (R7 `BusAns`). -/
def answer (s : State) : BusAnswer :=
  match s.answers with
  | a :: _ => a
  | [] => Config.busAnswer s.free

/-- The event `W(b)` to `SLAVE_ADDR` (R103) that ended as `e`; one answer of the bus is used up. -/
def recordWrite (b : Byte) (e : WriteEnd) (s : State) : State :=
  record (.write s.params.slaveAddr b e) (nextStart s) (nextStart s + Config.writeUs s.free)
    { s with answers := s.answers.tail }

/-- A write that has begun and not ended: the event with no end time of its own (R246, R232). -/
def recordOpenWrite (b : Byte) (e : WriteEnd) (s : State) : State :=
  record (.write s.params.slaveAddr b e) (nextStart s) (nextStart s) { s with answers := s.answers.tail }

/-- A write answered `ok`: all eight pins are `b` (R37, R55), and the controller latches on a falling edge (R108). -/
def landed (b : Byte) (s : State) : State :=
  let t := recordWrite b .ok s
  { t with pins := b, latches := t.latches ++ (latchOf s.pins b).toList }

/-- `TW(b)` (R101): one write of `b` exactly as given, no retry; true when answered `ok`, false when answered `fail`.
The reset input has an opportunity before the write and one while it is in progress (R232). -/
def transportWrite (b : Byte) (s : State) : Flow Bool :=
  match resetTaken s with
  | (true, s) => .stop (takeReset s)
  | (false, s) =>
    match resetTaken s with
    | (true, s) => .stop (takeReset (disturb (recordOpenWrite b .cut s)))
    | (false, s) =>
      match answer s with
      | .ok => .go true (landed b s)
      | .fail => .go false (disturb (recordWrite b .fail s))
      | .never => .stop (disturb (recordOpenWrite b .unanswered s))

/-- The end of a wait of at least `t` µs that began when the last event ended (R250); the timer is idle again (R213). -/
def waited (t : Nat) (s : State) : State :=
  record (.delay t) s.now (s.now + t + Config.excessUs s.free) { s with timer := none }

/-- `Delay(t)` (R10, R250); `Delay(0)` emits nothing. The reset input has an opportunity while the timer runs (R232).
DESIGN CHOICE (log entry 20): a wait that reset cuts short leaves no `D(t)` in the event sequence, which the spec does
not settle. -/
def delay (t : Nat) (s : State) : Flow Unit :=
  if t = 0 then .go () s
  else
    match resetTaken { s with timer := some t } with
    | (true, s) => .stop (takeReset s)
    | (false, s) => .go () (waited t s)

/-- The event `RSP` and IDLE again (R21, R80). -/
def responded (c : Code) (data : Byte) (s : State) : State :=
  record (.rsp (responseWord c data)) (nextStart s) (nextStart s) { s with seq := .idle }

/-- `Respond(code, data)` (R10): it ends the request. A reset before it abandons the request with no response (R232). -/
def respond (c : Code) (data : Byte) (s : State) : State :=
  match resetTaken s with
  | (true, s) => takeReset s
  | (false, s) => responded c data s

/-- `raise ILLEGAL` (R10, R202), the one error entry: `Respond(ILLEGAL, 0)` and nothing else. There is no trap entry and
no return from one (R208, R209). -/
def raiseIllegal (s : State) : State := respond .illegal 0 s

/-- `Respond(r ? OK : FAIL, 0)` on the result of the request's last operation. -/
def respondResult (f : Flow Bool) : State := f.finish fun r s => respond (Code.ofResult r) 0 s

/-! ### The state a request writes of its own -/

/-- BLON and BLOFF write the backlight flag (R25). -/
def setBacklight (b : Bool) (s : State) : State := { s with bl := b }

/-- INIT starts from Uninitialized with `INIT_ERR` clear (R160, R165). -/
def beginInit (s : State) : State := { s with initState := 0, initErr := false }

/-- INIT enters a state of its sequence (R31, R160). -/
def enterInit (k : BitVec 4) (s : State) : State := { s with initState := k }

/-- INIT aborts: `INIT_ERR` is set and `INIT_STATE` stays (R32, R162). -/
def abortInit (s : State) : State := { s with initErr := true }

/-- LDTXT stores a byte in the text buffer (R33, R180). -/
def storeText (idx : BitVec 4) (byte : Byte) (s : State) : State :=
  { s with text := Memory.write s.text idx.toNat byte }

/-! ### The helpers -/

/-- `strobe(c)` (R104): enable SET, CLEARED, SET again, the backlight bit OR'ed in; no write after a failed one
(R105). -/
def strobe (c : Byte) (s : State) : Flow Bool :=
  let blb := blBit s.bl
  (transportWrite ((c ||| enBit) ||| blb) s).bind fun r s =>
    if r then
      (transportWrite ((c ||| blb) &&& ~~~enBit) s).bind fun r s =>
        if r then transportWrite ((c ||| enBit) ||| blb) s else .go false s
    else .go false s

/-- `send8(rs, rw, v)` (R121): the high-nibble frame, then, if its strobe succeeded, the low-nibble frame (R52). -/
def send8 (rs rw : Line) (v : Byte) (s : State) : Flow Bool :=
  (strobe (frameHi rs rw v) s).bind fun r s =>
    if r then strobe (frameLo rs rw v) s else .go false s

/-- `send4f(n)` (R122): one strobe of the nibble with RS and RW off. -/
def send4f (n : Nibble) (s : State) : Flow Bool := strobe (frameForced n) s

/-- `cmd(opc, t)` (R130): send8 to the instruction register, then the delay, whether or not a write failed. -/
def cmd (opc : Byte) (t : Nat) (s : State) : Flow Bool :=
  (send8 0 0 opc s).bind fun r s => (delay t s).bind fun _ s => .go r s

/-- `apply()` (43_backlight.md): one write of (flag | enable-bit). -/
def applyBacklight (s : State) : Flow Bool := transportWrite (blBit s.bl ||| enBit) s

/-- The pairs of consecutive latches from pair number `n` on. -/
def pairsFrom : Nat → List Latch → List (Line × Byte)
  | n, a :: b :: ls =>
    (if a.rs = b.rs then a.rs else Config.mixedRs n a b, a.nibble ++ b.nibble) :: pairsFrom (n + 1) ls
  | _, _ => []

/-- The nibble pairing of 4-bit mode (R109), an observation of what the display receives from these latches on: every
two consecutive latches are one byte, the first as bits 7:4 and the second as bits 3:0, with the register-select of
the pair; after a byte transfer that failed half way this pairs off by one, as the controller does. Where the two
latches differ in register-select, which of them the pair has is left open (log entry 13). A half byte left over is
not yet a byte. -/
def receivedBytes (ls : List Latch) : List (Line × Byte) := pairsFrom 0 ls

end Sys2Proof.Machine
end

