-- ==== Sys2Proof/Machine/Backlight.lean ====
section
/-! DEFINITION. Backlight: BLON and BLOFF (43_backlight.md). The flag is written first and stays written whatever the
answer; the write is made even when the flag does not change (D26). -/

namespace Sys2Proof.Machine

/-- BLON (R150). -/
def execBlon (s : State) : Host.Outcome State Fault Refusal :=
  .next (respondResult (applyBacklight (setBacklight true s)))

/-- BLOFF (R151). -/
def execBloff (s : State) : Host.Outcome State Fault Refusal :=
  .next (respondResult (applyBacklight (setBacklight false s)))

end Sys2Proof.Machine
end

