-- ==== Sys2Proof/Machine/Commands.lean ====
section
/-! DEFINITION. The command set (42_command_set.md): each request is one cmd with a fixed LCD byte and post-delay, and the
response follows the delay (R138). -/

namespace Sys2Proof.Machine

/-- FNSET (R131): function set, 4-bit, 2-line. -/
def execFnset (s : State) : Host.Outcome State Fault Refusal :=
  .next (respondResult (cmd 0x28 s.params.tCmdUs s))

/-- DISPON (R132): display on, cursor and blink off. -/
def execDispon (s : State) : Host.Outcome State Fault Refusal :=
  .next (respondResult (cmd 0x0C s.params.tCmdUs s))

/-- DISPOFF (R133): display off. -/
def execDispoff (s : State) : Host.Outcome State Fault Refusal :=
  .next (respondResult (cmd 0x08 s.params.tCmdUs s))

/-- CLEAR (R134): clear display, with the parameter `T_CLEAR_US` as its post-delay. -/
def execClear (s : State) : Host.Outcome State Fault Refusal :=
  .next (respondResult (cmd 0x01 s.params.tClearUs s))

/-- ENTRY (R135): entry mode set, increment, no shift. -/
def execEntry (s : State) : Host.Outcome State Fault Refusal :=
  .next (respondResult (cmd 0x06 s.params.tCmdUs s))

/-- HOME (R136): return home. -/
def execHome (s : State) : Host.Outcome State Fault Refusal :=
  .next (respondResult (cmd 0x02 s.params.tHomeUs s))

/-- SETDDRAM (R137): set DDRAM address, every 7-bit address sent as given. -/
def execSetddram (addr : BitVec 7) (s : State) : Host.Outcome State Fault Refusal :=
  .next (respondResult (cmd (ddramByte addr) s.params.tCmdUs s))

end Sys2Proof.Machine
end

