-- ==== Sys2Proof/Machine/Init.lean ====
section
/-! DEFINITION. The initialisation sequencer: INIT (44_init.md R160, R161). -/

namespace Sys2Proof.Machine

/-- What a step of INIT sends: a forced nibble or an instruction byte (R160). -/
inductive InitAction where
  | forced (n : Nibble)
  | byte (v : Byte)
  deriving DecidableEq, Repr

/-- A step of INIT: the state it enters, what it sends, the wait after it (R160, R161). -/
structure InitStep where
  enters : BitVec 4
  sends : InitAction
  wait : Nat
  deriving DecidableEq, Repr

/-- The list of R160, steps 2 to 9 of R161. -/
def initSteps (p : Config.Params) : List InitStep :=
  [⟨1, .forced 0x3, p.tF1Us⟩,
   ⟨2, .forced 0x3, p.tF2Us⟩,
   ⟨3, .forced 0x3, 0⟩,
   ⟨4, .forced 0x2, 0⟩,
   ⟨5, .byte 0x28, p.tCmdUs⟩,
   ⟨6, .byte 0x08, p.tCmdUs⟩,
   ⟨7, .byte 0x01, p.tClearUs⟩,
   ⟨8, .byte 0x06, p.tCmdUs⟩]

/-- Send what a step of INIT sends (R160). -/
def sendInit (a : InitAction) (s : State) : Flow Bool :=
  match a with
  | .forced n => send4f n s
  | .byte v => send8 0 0 v s

/-- One step of INIT (R160): send, enter the step's state if that succeeded, then wait in either case. -/
def initStep (st : InitStep) (s : State) : Flow Bool :=
  (sendInit st.sends s).bind fun r s =>
    (delay st.wait (if r then enterInit st.enters s else s)).bind fun _ s => .go r s

/-- The loop of R160: abort with `INIT_ERR` set and FAIL at the first step that fails, else Ready and OK. -/
def runInit : List InitStep → State → State
  | [], s => respond .ok 0 (enterInit 9 s)
  | st :: rest, s =>
    (initStep st s).finish fun r s =>
      if r then runInit rest s else respond .fail 0 (abortInit s)

/-- INIT (R160): always from step 1, with `INIT_STATE` and `INIT_ERR` cleared first (R165). -/
def execInit (s : State) : Host.Outcome State Fault Refusal :=
  .next ((delay s.params.tPwrUs (beginInit s)).finish fun _ s =>
    runInit (initSteps s.params) s)

end Sys2Proof.Machine
end

