-- ==== Sys2Proof/Machine/Status.lean ====
section
/-! DEFINITION. Status read: STATUS (46_status.md). -/

namespace Sys2Proof.Machine

/-- STATUS (R190): answer OK with the status byte; no state written, no bus write, no delay. -/
def execStatus (s : State) : Host.Outcome State Fault Refusal :=
  .next (respond .ok (statusByte s) s)

end Sys2Proof.Machine
end

