-- ==== Sys2Proof/Machine/Text.lean ====
section
/-! DEFINITION. Text: LDTXT and PRINT (45_text_print.md). -/

namespace Sys2Proof.Machine

/-- LDTXT (R180): store one byte in the text buffer; no bus write, no delay. -/
def execLdtxt (idx : BitVec 4) (byte : Byte) (s : State) : Host.Outcome State Fault Refusal :=
  .next (respond .ok 0 (storeText idx byte s))

/-- The loop of R181 from index `i` with `n` entries of the buffer left: stop at the terminator, at the end of the buffer
or at the first character whose transfer fails, and answer the count of characters fully transferred. -/
def printFrom : Nat → Nat → State → State
  | 0, i, s => respond .ok (BitVec.ofNat 8 i) s
  | n + 1, i, s =>
    if Memory.read s.text i = 0 then respond .ok (BitVec.ofNat 8 i) s
    else
      (send8 1 0 (Memory.read s.text i) s).finish fun r s =>
        if r then printFrom n (i + 1) s else respond .fail (BitVec.ofNat 8 i) s

/-- PRINT (R181). -/
def execPrint (s : State) : Host.Outcome State Fault Refusal :=
  .next (printFrom s.params.textLen 0 s)

end Sys2Proof.Machine
end

