-- ==== Sys2Proof/Machine/Transfer.lean ====
section
/-! DEFINITION. Byte transfer: SEND8 (41_byte_transfer.md). -/

namespace Sys2Proof.Machine

/-- SEND8 (R123): RW = 1 raises ILLEGAL before any write; else one send8, no delay, and its result. -/
def execSend8 (rw rs : Line) (v : Byte) (s : State) : Host.Outcome State Fault Refusal :=
  .next (if rw = 0 then respondResult (send8 rs 0 v s) else raiseIllegal s)

end Sys2Proof.Machine
end

