-- ==== Sys2Proof/Machine/Dispatch.lean ====
section
/-! DEFINITION. The dispatch of a decoded request to its meaning (R72), one arm per constructor of Instr. -/

namespace Sys2Proof.Machine

def exec (i : Instr) (s : State) : Host.Outcome State Fault Refusal :=
  match i with
  | .send8 rw rs v => Sys2Proof.Machine.execSend8 rw rs v s
  | .fnset => Sys2Proof.Machine.execFnset s
  | .dispon => Sys2Proof.Machine.execDispon s
  | .dispoff => Sys2Proof.Machine.execDispoff s
  | .clear => Sys2Proof.Machine.execClear s
  | .entry => Sys2Proof.Machine.execEntry s
  | .home => Sys2Proof.Machine.execHome s
  | .setddram addr => Sys2Proof.Machine.execSetddram addr s
  | .blon => Sys2Proof.Machine.execBlon s
  | .bloff => Sys2Proof.Machine.execBloff s
  | .init => Sys2Proof.Machine.execInit s
  | .ldtxt idx byte => Sys2Proof.Machine.execLdtxt idx byte s
  | .print => Sys2Proof.Machine.execPrint s
  | .status => Sys2Proof.Machine.execStatus s

end Sys2Proof.Machine
end

