-- ==== Sys2Proof/Machine/Step.lean ====
section
/-! DEFINITION. One step of the bridge: IDLE, it accepts the request on the port and executes it to its response (R21,
R34); BUSY, it waits for an answer that never comes (R246). There is no program counter and no fetch (R34). -/

namespace Sys2Proof.Machine

/-- The accepted request: decoded first and before anything else; a word that is not legal raises ILLEGAL (R202). -/
def execWord (w : Word) (s : State) : Host.Outcome State Fault Refusal :=
  match decode w with
  | .ok i => exec i s
  | .error _ => .next (raiseIllegal s)

def step (s : State) : Host.Outcome State Fault Refusal :=
  match s.seq with
  | .busy _ => .next (waitForAnswer s)
  | .idle =>
    match resetTaken s with
    | (true, s) => .next (takeReset s)
    | (false, s) =>
      match s.requests with
      | [] => .next s
      | w :: rest => execWord w (takeRequest w rest s)

/-- `s` with the request word `w` on the host port, the sequencer IDLE and the reset input not asserted, so that the next
step accepts and runs exactly `w`. A request is one 16-bit word on a parallel port (R53), so `nbits` lays out nothing. -/
def State.withFetchWord (s : State) (nbits w : Nat) : State :=
  { s with seq := .idle, resets := [], requests := BitVec.ofNat 16 (w % 2 ^ nbits) :: s.requests }

end Sys2Proof.Machine
end

