-- ==== Sys2Proof/Machine/Assembler.lean ====
section
/-! DEFINITION. The assembler of R85 and R86: source lines to request words. It has no hardware effect (D34); it is the
spec's way to spell requests. An operand out of its range is an assembly error, here `none`. -/

namespace Sys2Proof.Machine

/-- A source line (R85, R86) with its operands as written. -/
inductive AsmLine where
  | send8 (rs value : Nat)
  | fnset
  | dispon
  | dispoff
  | clear
  | entry
  | home
  | setddram (addr : Nat)
  | blon
  | bloff
  | init
  | ldtxt (idx byte : Nat)
  | print
  | status
  /-- `.word w`, which emits w unchanged (R85). -/
  | word (w : Nat)
  /-- `INSTR v` (R86). -/
  | instr (v : Nat)
  /-- `DATA v` (R86). -/
  | data (v : Nat)
  | row0
  | row1
  /-- `LDSTR "s"` (R86), the string as its character codes. -/
  | ldstr (cs : List Nat)
  /-- `PUTS r, "s"` (R86). -/
  | puts (r : Nat) (cs : List Nat)
  deriving DecidableEq, Repr

/-- `n` if it lies below `bound`, else an assembly error (R85). -/
def inRange (bound n : Nat) : Option Nat := if n < bound then some n else none

/-- `SEND8 rs, value` (R85). -/
def asmSend8 (rs value : Nat) : Option (List Word) := do
  let r ← inRange 2 rs
  let v ← inRange 256 value
  return [encode (.send8 0 (BitVec.ofNat 1 r) (BitVec.ofNat 8 v))]

/-- `SETDDRAM addr` (R85). -/
def asmSetddram (addr : Nat) : Option (List Word) := do
  let a ← inRange 128 addr
  return [encode (.setddram (BitVec.ofNat 7 a))]

/-- `LDTXT idx, byte` (R85). -/
def asmLdtxt (idx byte : Nat) : Option (List Word) := do
  let i ← inRange 16 idx
  let b ← inRange 256 byte
  return [encode (.ldtxt (BitVec.ofNat 4 i) (BitVec.ofNat 8 b))]

/-- `LDTXT i, c` for each character from index `i` on, and a terminator when the buffer has room for one (R86). -/
def asmLdstrFrom : Nat → List Nat → Option (List Word)
  | i, [] => if i < 16 then asmLdtxt i 0 else some []
  | i, c :: cs => do
    let w ← asmLdtxt i c
    let ws ← asmLdstrFrom (i + 1) cs
    return w ++ ws

/-- The words of a source line (R85, R86), or `none` for an assembly error. -/
def assemble (l : AsmLine) : Option (List Word) :=
  match l with
  | .send8 rs v => asmSend8 rs v
  | .fnset => some [encode .fnset]
  | .dispon => some [encode .dispon]
  | .dispoff => some [encode .dispoff]
  | .clear => some [encode .clear]
  | .entry => some [encode .entry]
  | .home => some [encode .home]
  | .setddram a => asmSetddram a
  | .blon => some [encode .blon]
  | .bloff => some [encode .bloff]
  | .init => some [encode .init]
  | .ldtxt i b => asmLdtxt i b
  | .print => some [encode .print]
  | .status => some [encode .status]
  | .word w => do return [BitVec.ofNat 16 (← inRange 65536 w)]
  | .instr v => asmSend8 0 v
  | .data v => asmSend8 1 v
  | .row0 => asmSetddram 0x00
  | .row1 => asmSetddram 0x40
  | .ldstr cs => asmLdstrFrom 0 cs
  | .puts r cs => do
    let row ← if r = 0 then asmSetddram 0x00 else if r = 1 then asmSetddram 0x40 else none
    let text ← asmLdstrFrom 0 cs
    return row ++ text ++ [encode .print]

/-! ### Source text -/

/-- The 8-bit code of a quoted character (R85), or an assembly error where it has none. DESIGN CHOICE (log entry 21): the
spec names no character set; the code is the Unicode code point, so that 0x00 to 0x7F are ASCII and 0x80 to 0xFF Latin-1,
and a character above them has no 8-bit code. -/
def charCode (c : Char) : Option Nat := inRange 256 c.toNat

/-- A token of a source line; a quoted character is the number of its code (R85), and a string is its characters' codes. -/
inductive Tok where
  | name (cs : List Char)
  | num (n : Nat)
  | str (cs : List Nat)
  | comma
  deriving DecidableEq, Repr

/-- What the reader of a source line is in the middle of. -/
inductive LexMode where
  | between
  | inName (rev : List Char)
  | zero
  | dec (n : Nat)
  | hexStart
  | hex (n : Nat)
  | charOpen
  | charRead (code : Nat)
  | inStr (rev : List Nat)
  deriving DecidableEq, Repr

/-- The token that ends where the reader stands, if any; `none` where a token is cut short. -/
def LexMode.flush (m : LexMode) : Option (List Tok) :=
  match m with
  | .between => some []
  | .inName r => some [.name r.reverse]
  | .zero => some [.num 0]
  | .dec n => some [.num n]
  | .hex n => some [.num n]
  | .hexStart => none
  | .charOpen => none
  | .charRead _ => none
  | .inStr _ => none

def digit (c : Char) : Option Nat := if '0' ≤ c ∧ c ≤ '9' then some (c.toNat - 48) else none

def hexDigit (c : Char) : Option Nat :=
  if 'a' ≤ c ∧ c ≤ 'f' then some (c.toNat - 87) else if 'A' ≤ c ∧ c ≤ 'F' then some (c.toNat - 55) else digit c

/-- The reader after a character that continues or begins a name or a number. -/
def LexMode.push (m : LexMode) (c : Char) : Option LexMode :=
  match m with
  | .between =>
    if c = '\'' then some .charOpen
    else if c = '"' then some (.inStr [])
    else if c = '0' then some .zero
    else match digit c with
      | some d => some (.dec d)
      | none => some (.inName [c])
  | .inName r => some (.inName (c :: r))
  | .zero => if c = 'x' then some .hexStart else (digit c).map .dec
  | .dec n => (digit c).map fun d => .dec (10 * n + d)
  | .hexStart => (hexDigit c).map .hex
  | .hex n => (hexDigit c).map fun d => .hex (16 * n + d)
  | .charOpen => (charCode c).map .charRead
  | .charRead _ => none
  | .inStr r => (charCode c).map fun k => .inStr (k :: r)

/-- The tokens of a source line: `;` starts a comment, blanks and commas separate (R85). A `;`, blank or comma inside
quotes stands for its code, and a quoted character without a code is an error (`charCode`, log entries 16 and 21). -/
def lex : LexMode → List Char → Option (List Tok)
  | m, [] => m.flush
  | m, c :: cs =>
    match m with
    | .charOpen => (charCode c).bind fun k => lex (.charRead k) cs
    | .charRead k => if c = '\'' then (lex .between cs).map (.num k :: ·) else none
    | .inStr r =>
      if c = '"' then (lex .between cs).map (.str r.reverse :: ·)
      else (charCode c).bind fun k => lex (.inStr (k :: r)) cs
    | m =>
      if c = ';' then m.flush
      else if c = ' ' ∨ c = '\t' then do return (← m.flush) ++ (← lex .between cs)
      else if c = ',' then do return (← m.flush) ++ Tok.comma :: (← lex .between cs)
      else match m.push c with
        | some m => lex m cs
        | none => none

/-- The line that these tokens spell (R85, R86); a line with no token is empty, and any other shape is an error. -/
def parseTokens (ts : List Tok) : Option (Option AsmLine) :=
  match ts with
  | [] => some none
  | [.name n] =>
    if n = "FNSET".toList then some (some .fnset)
    else if n = "DISPON".toList then some (some .dispon)
    else if n = "DISPOFF".toList then some (some .dispoff)
    else if n = "CLEAR".toList then some (some .clear)
    else if n = "ENTRY".toList then some (some .entry)
    else if n = "HOME".toList then some (some .home)
    else if n = "BLON".toList then some (some .blon)
    else if n = "BLOFF".toList then some (some .bloff)
    else if n = "INIT".toList then some (some .init)
    else if n = "PRINT".toList then some (some .print)
    else if n = "STATUS".toList then some (some .status)
    else if n = "ROW0".toList then some (some .row0)
    else if n = "ROW1".toList then some (some .row1)
    else none
  | [.name n, .num a] =>
    if n = "SETDDRAM".toList then some (some (.setddram a))
    else if n = ".word".toList then some (some (.word a))
    else if n = "INSTR".toList then some (some (.instr a))
    else if n = "DATA".toList then some (some (.data a))
    else none
  | [.name n, .num a, .comma, .num b] =>
    if n = "SEND8".toList then some (some (.send8 a b))
    else if n = "LDTXT".toList then some (some (.ldtxt a b))
    else none
  | [.name n, .str s] => if n = "LDSTR".toList then some (some (.ldstr s)) else none
  | [.name n, .num r, .comma, .str s] => if n = "PUTS".toList then some (some (.puts r s)) else none
  | _ => none

/-- The words of one line of source text (R85): none for a blank or comment line, and no answer for an error. -/
def assembleText (line : String) : Option (List Word) :=
  match (lex .between line.toList).bind parseTokens with
  | some (some l) => assemble l
  | some none => some []
  | none => none

end Sys2Proof.Machine
end

