-- ==== Sys2Proof/Safety.lean ====
section
/-! DEFINITION. The terms claims are made in: the bus bytes and command table as the spec lists them (R82, R83), the
environments a claim speaks of, what a request leaves unchanged, the structural invariant, and two monitors that read
the whole event sequence, one for the protocol (R21, R200 to R207, R152) and one for the clock (R250). -/

namespace Sys2Proof.Safety

open Sys2Proof.Machine

/-! ### The bytes and tables of the spec -/

/-- A strobe byte (n, BL, EN, 0, RS) of R82; an apply byte is the one with nibble 0, EN = 1 and RS = 0. -/
def pinByte (n : Nibble) (bl en : Bool) (rs : Line) : Byte :=
  n ++ BitVec.ofBool bl ++ BitVec.ofBool en ++ 0#1 ++ rs

/-- The three bytes of a strobe: enable SET, CLEAR, SET (R82, R106). -/
def strobeBytes (bl : Bool) (rs : Line) (n : Nibble) : List Byte :=
  [pinByte n bl true rs, pinByte n bl false rs, pinByte n bl true rs]

/-- The six bytes of a byte transfer: the strobe of v[7:4], then the strobe of v[3:0] (R52, R121). -/
def transferBytes (bl : Bool) (rs : Line) (v : Byte) : List Byte :=
  strobeBytes bl rs (v.extractLsb' 4 4) ++ strobeBytes bl rs (v.extractLsb' 0 4)

/-- The bytes PRINT sends for a list of characters (R181). -/
def textBytes (bl : Bool) (cs : List Byte) : List Byte := cs.flatMap (transferBytes bl 1)

/-- The two latches of a byte transfer (R109). -/
def transferLatches (rs : Line) (v : Byte) : List Latch :=
  [⟨rs, 0, v.extractLsb' 4 4⟩, ⟨rs, 0, v.extractLsb' 0 4⟩]

/-- The LCD byte and post-delay of each request of the command set (R83, R131 to R137). -/
def command (p : Config.Params) (i : Instr) : Option (Byte × Nat) :=
  match i with
  | .fnset => some (0x28, p.tCmdUs)
  | .dispon => some (0x0C, p.tCmdUs)
  | .dispoff => some (0x08, p.tCmdUs)
  | .clear => some (0x01, p.tClearUs)
  | .entry => some (0x06, p.tCmdUs)
  | .home => some (0x02, p.tHomeUs)
  | .setddram addr => some (1#1 ++ addr, p.tCmdUs)
  | .send8 _ _ _ => none
  | .blon => none
  | .bloff => none
  | .init => none
  | .ldtxt _ _ => none
  | .print => none
  | .status => none

/-- Writes of these bytes to the expander at `addr`, each answered `ok`. -/
def okWrites (addr : BitVec 7) (bs : List Byte) : List Event := bs.map fun b => .write addr b .ok

/-- The first `k` writes answered `ok`, the next one ended as `e`, and no other. -/
def writesUpTo (addr : BitVec 7) (bs : List Byte) (k : Nat) (e : WriteEnd) : List Event :=
  okWrites addr (bs.take k) ++ ((bs.drop k).take 1).map fun b => .write addr b e

/-- The event of `Delay(t)`: none when t is 0 (R10). -/
def waitEvents (t : Nat) : List Event := if t = 0 then [] else [.delay t]

/-- A row of R161: the bytes sent, the wait after them in µs, and the state entered. -/
structure InitRow where
  bytes : List Byte
  wait : Nat
  state : BitVec 4

/-- The table of R161, steps 2 to 9, with the bytes of R163 at backlight flag `bl`. -/
def initRows (bl : Bool) (p : Config.Params) : List InitRow :=
  [⟨strobeBytes bl 0 3, p.tF1Us, 1⟩, ⟨strobeBytes bl 0 3, p.tF2Us, 2⟩, ⟨strobeBytes bl 0 3, 0, 3⟩,
   ⟨strobeBytes bl 0 2, 0, 4⟩,
   ⟨transferBytes bl 0 0x28, p.tCmdUs, 5⟩, ⟨transferBytes bl 0 0x08, p.tCmdUs, 6⟩,
   ⟨transferBytes bl 0 0x01, p.tClearUs, 7⟩, ⟨transferBytes bl 0 0x06, p.tCmdUs, 8⟩]

/-- The events of these rows with every write answered `ok`. -/
def initEvents (addr : BitVec 7) (rows : List InitRow) : List Event :=
  rows.flatMap fun r => okWrites addr r.bytes ++ waitEvents r.wait

/-- The text PRINT sends: the bytes of the buffer up to the first 0x00 or its end (R181, R182). -/
def printedText (s : State) : List Byte :=
  ((List.range s.params.textLen).map (Memory.read s.text)).takeWhile fun b => b != 0x00

/-- All the bytes a request writes when every write is answered `ok` (R252). -/
def requestBytes (s : State) (i : Instr) : List Byte :=
  match i with
  | .send8 _ rs v => transferBytes s.bl rs v
  | .fnset => transferBytes s.bl 0 0x28
  | .dispon => transferBytes s.bl 0 0x0C
  | .dispoff => transferBytes s.bl 0 0x08
  | .clear => transferBytes s.bl 0 0x01
  | .entry => transferBytes s.bl 0 0x06
  | .home => transferBytes s.bl 0 0x02
  | .setddram addr => transferBytes s.bl 0 (1#1 ++ addr)
  | .blon => [0x0C]
  | .bloff => [0x04]
  | .init => (initRows s.bl s.params).flatMap InitRow.bytes
  | .ldtxt _ _ => []
  | .print => textBytes s.bl (printedText s)
  | .status => []

/-- Is the event a write transaction? -/
def isWrite (e : Event) : Bool :=
  match e with
  | .write _ _ _ => true
  | .req _ => false
  | .delay _ => false
  | .rsp _ => false
  | .reset => false

/-- The word `w0` and no other decodes to `i`, and every other word of its opcode is ILLEGAL (R71 format F0, R75). -/
def OnlyWord (w0 : Word) (i : Instr) : Prop :=
  (∀ w : Word, decode w = .ok i ↔ w = w0) ∧ ∀ w : Word, opField w = opField w0 → w ≠ w0 → ∃ e, decode w = .error e

/-! ### Environments -/

/-- No reset is asserted and the next `n` writes are answered `ok`. -/
def AllOk (n : Nat) (s : State) : Prop := s.resets = [] ∧ s.answers.take n = List.replicate n .ok

/-- No reset is asserted, the next `k` writes are answered `ok` and the one after them is answered `a`. -/
def AnsweredAt (k : Nat) (a : BusAnswer) (s : State) : Prop :=
  s.resets = [] ∧ s.answers.take (k + 1) = List.replicate k .ok ++ [a]

/-! ### Frames -/

/-- The bridge's own registers and text buffer are those of `s` (R24), and so are the parameters and the inputs that the
host has not yet given. -/
def Unchanged (s t : State) : Prop :=
  t.bl = s.bl ∧ t.initState = s.initState ∧ t.initErr = s.initErr ∧ t.text = s.text ∧ t.timer = s.timer ∧
    t.params = s.params ∧ t.requests = s.requests ∧ t.resets = s.resets

/-! ### The structural invariant -/

/-- The text buffer is in canonical form; `INIT_STATE` is one of the ten states (R31) and, after an aborted INIT, not a
state that only a complete step 9 enters (R164); the delay timer is idle between steps (R213). -/
def Inv (s : State) : Prop :=
  Memory.wf s.text = true ∧ s.initState.toNat ≤ 9 ∧ (s.initErr = true → s.initState.toNat ≤ 7) ∧ s.timer = none

/-! ### The protocol monitor -/

/-- Where the event sequence stands: no request; one accepted and nothing emitted yet; one with every write so far
answered `ok`; one with a write answered `fail`; one whose write was never answered; one whose write was cut off. -/
inductive Phase where
  | idle
  | started (w : Word)
  | running (w : Word)
  | failed (w : Word)
  | hung (w : Word)
  | cut (w : Word)
  deriving DecidableEq, Repr

/-- The phase, the backlight flag that the sequence so far has set, and the expander's address. -/
structure Monitor where
  phase : Phase
  bl : Bool
  slaveAddr : BitVec 7
  deriving DecidableEq, Repr

/-- The backlight flag once the request word `w` is accepted: only BLON and BLOFF set it (R25, R150, R151). -/
def blAfter (w : Word) (bl : Bool) : Bool := if w = 0xA000 then true else if w = 0xB000 then false else bl

/-- `DATA` of a response to the legal word `w`: a count of 0 to 16 for PRINT, the status byte for STATUS, else 0
(R81). -/
def dataAllowed (w : Word) (r : Word) : Bool :=
  if w = 0xE000 then decide ((r.extractLsb' 8 8).toNat ≤ 16)
  else if w = 0xF000 then r.extractLsb' 14 2 == 0
  else r.extractLsb' 8 8 == 0

/-- A byte the bridge may write: to the expander's address, RW = 0, and the backlight bit equal to the flag (R22, R26,
R29, R152). -/
def writeAllowed (m : Monitor) (addr : BitVec 7) (b : Byte) : Bool :=
  addr == m.slaveAddr && b.getLsbD 1 == false && b.getLsbD 3 == m.bl

/-- The phase after a write of the request `w` that ended as `e`. -/
def Phase.afterWrite (w : Word) (e : WriteEnd) : Phase :=
  match e with
  | .ok => .running w
  | .fail => .failed w
  | .unanswered => .hung w
  | .cut => .cut w

/-- The low byte of a response to `w` (R80): OK for a legal word, ILLEGAL for any other, with data as R81 says. -/
def Monitor.mayAnswer (w r : Word) (failed : Bool) : Bool :=
  if legal w then r.extractLsb' 0 8 == (if failed then 0x01 else 0x00) && dataAllowed w r else r == 0x0002

/-- The next monitor state, or none if the protocol forbids the event: a request is accepted only when IDLE (R21); an
ILLEGAL word gets its answer and nothing else (R202); no write follows a failed one and the answer is then FAIL (R203,
R207); nothing follows a write that is never answered or is cut off but a reset (R246, R232). -/
def Monitor.next (m : Monitor) (e : Event) : Option Monitor :=
  match e with
  | .reset => some { m with phase := .idle, bl := true }
  | .req w => if m.phase = .idle then some { m with phase := .started w, bl := blAfter w m.bl } else none
  | .write addr b e =>
    match m.phase with
    | .started w | .running w =>
      if legal w = true ∧ writeAllowed m addr b = true then some ⟨.afterWrite w e, m.bl, m.slaveAddr⟩ else none
    | _ => none
  | .delay t =>
    match m.phase with
    | .started w | .running w => if legal w = true ∧ t ≠ 0 then some { m with phase := .running w } else none
    | .failed w => if t ≠ 0 then some { m with phase := .failed w } else none
    | _ => none
  | .rsp r =>
    match m.phase with
    | .started w => if Monitor.mayAnswer w r false then some { m with phase := .idle } else none
    | .running w => if Monitor.mayAnswer w r false then some { m with phase := .idle } else none
    | .failed w => if Monitor.mayAnswer w r true then some { m with phase := .idle } else none
    | _ => none

/-- Read an event sequence from `m` on. -/
def Monitor.read (m : Monitor) (es : List Event) : Option Monitor :=
  match es with
  | [] => some m
  | e :: es =>
    match m.next e with
    | some m => m.read es
    | none => none

/-- The monitor before any event: IDLE with the backlight flag at its reset value. -/
def Monitor.start (slaveAddr : BitVec 7) : Monitor := ⟨.idle, true, slaveAddr⟩

/-- The phase that a sequencer state between two steps stands for. -/
def phaseOf (q : Seq) : Phase :=
  match q with
  | .idle => .idle
  | .busy w => .hung w

/-- The whole event sequence of `s` follows the protocol, and ends where the sequencer and the backlight flag say. -/
def Follows (s : State) : Prop :=
  (Monitor.start s.params.slaveAddr).read s.events = some ⟨phaseOf s.seq, s.bl, s.params.slaveAddr⟩

/-! ### The clock monitor -/

/-- May the event `e` follow one that ended at time `t`? It begins no earlier, ends no earlier than it began, and a wait
begins when the last event ended and lasts at least its bound (R250, R57). -/
def timeAllowed (t : Nat) (e : Timed) : Bool :=
  decide (t ≤ e.start) && decide (e.start ≤ e.stop) &&
    match e.event with
    | .delay d => decide (e.start = t) && decide (t + d ≤ e.stop)
    | .req _ => true
    | .write _ _ _ => true
    | .rsp _ => true
    | .reset => true

/-- The time at which the sequence ends, or none if an event of it came too early. -/
def clockFrom : Nat → List Timed → Option Nat
  | t, [] => some t
  | t, e :: es => if timeAllowed t e then clockFrom e.stop es else none

/-- The event sequence of `s` keeps R250's time order, and ends at the state's time. -/
def OnTime (s : State) : Prop := clockFrom 0 s.log = some s.now

end Sys2Proof.Safety
end

