-- ==== Sys2Proof/Certificates/Slice0/Obligations.lean ====
section
/-! DEFINITION. The statements for the provers. In a statement about what a request does, `AllOk n s` says that no
reset is asserted and the next `n` writes are answered `ok`, and `AnsweredAt k a s` that no reset is asserted, the
next `k` writes are answered `ok` and the one after them `a`; `Unchanged s t` names every register, the text buffer,
the parameters and the inputs as left alone. Of a value the spec leaves open (pins and latches after a write not
answered `ok`, times) no statement says anything. The event `.reset` is the model's own mark of where the reset input
took effect (log entry 6); when it takes effect is the model's count of opportunities (log entry 5); times are its
bookkeeping (log entry 7). -/

open Sys2Proof Sys2Proof.Machine Sys2Proof.Safety

/-! ### Encodings -/

/-- R71, R72, R79, R85: the decoder gives back every well-formed request from its word, with every operand value. -/
def Obligations.DecodeInvertsEncode : Prop :=
  ∀ i : Instr, i.wellFormed = true → decode (encode i) = .ok i

/-- R73, R77: a legal word names exactly one request, whose word it is. -/
def Obligations.LegalWordIsItsRequestsWord : Prop :=
  ∀ (w : Word) (i : Instr), decode w = .ok i → i.wellFormed = true ∧ encode i = w

/-- R73: decoding is total, a word decodes exactly when the rule's legality test holds, and then with legal operands;
and of the 4096 words of each opcode 512 are legal for SEND8, 128 for SETDDRAM, 4096 for LDTXT, one for each of the
eleven F0 opcodes and none for the two reserved ones: 4747 in all. -/
def Obligations.LegalWordsDecodeAndNumber4747 : Prop :=
  (∀ w : Word, (∃ i, decode w = .ok i) ↔ legal w = true) ∧
    (∀ (w : Word) (i : Instr), decode w = .ok i → i.wellFormed = true) ∧
    (List.range 16).map (fun op => (List.range 4096).countP fun n => legal (BitVec.ofNat 16 (4096 * op + n))) =
      [0, 512, 0, 1, 1, 1, 1, 1, 1, 128, 1, 1, 1, 4096, 1, 1] ∧
    [0, 512, 0, 1, 1, 1, 1, 1, 1, 128, 1, 1, 1, 4096, 1, 1].sum = 4747

/-- R201: the causes of ILLEGAL are a reserved opcode, a reserved operand bit that is 1 (bits 11:10 of opcode 0x1,
11:7 of 0x9, none of 0xD, 11:0 of every other), or RW = 1 in a SEND8 word; these are the only causes. -/
def Obligations.IllegalWordsHaveOneOfThreeCauses : Prop :=
  ∀ w : Word, (∃ e, decode w = .error e) ↔
    (opField w = 0x0 ∨ opField w = 0x2) ∨
    ((opField w = 0x1 ∧ w.extractLsb' 10 2 ≠ 0) ∨ (opField w = 0x9 ∧ w.extractLsb' 7 5 ≠ 0) ∨
      (opField w ≠ 0x0 ∧ opField w ≠ 0x1 ∧ opField w ≠ 0x2 ∧ opField w ≠ 0x9 ∧ opField w ≠ 0xD ∧
        w.extractLsb' 0 12 ≠ 0)) ∨
    (opField w = 0x1 ∧ w.extractLsb' 9 1 ≠ 0)

/-- Words written out from the formats of R71 decode to the requests they stand for. -/
def Obligations.SampleWordsDecode : Prop :=
  decode 0x1141 = .ok (.send8 0 1 0x41) ∧ decode 0x3000 = .ok .fnset ∧ decode 0x9040 = .ok (.setddram 0x40) ∧
    decode 0xA000 = .ok .blon ∧ decode 0xC000 = .ok .init ∧ decode 0xD141 = .ok (.ldtxt 1 0x41) ∧
    decode 0xE000 = .ok .print ∧ decode 0xF000 = .ok .status

/-- R80, U10: the host reads back the code and data of every response word the bridge can form, and a word with code
0b11 or a bit of 7:2 set is reported as a fault (the reading is the model's own operation, log entry 15). -/
def Obligations.ResponseWordsReadBack : Prop :=
  (∀ c d, readResponse (responseWord c d) = .ok (c, d)) ∧
    (∀ r : Word, readResponse r = .error .reservedResponse ↔ r.extractLsb' 2 6 ≠ 0 ∨ r.extractLsb' 0 2 = 0b11)

/-- R85: no line but `.word` assembles to an ILLEGAL word. -/
def Obligations.AssemblerSpellsOnlyLegalWords : Prop :=
  ∀ (l : AsmLine) (ws : List Word), (∀ n, l ≠ .word n) → assemble l = some ws → ∀ w ∈ ws, legal w = true

/-! ### The step, the host port and reset -/

/-- R21, R34: an IDLE bridge accepts the word on the port, and its step is the request's meaning in the state where
the request is accepted: the event REQ is emitted, the sequencer is BUSY and the port shows the host's next word (one
request is one step: log entry 9; the port is a list: log entry 8). -/
def Obligations.StepRunsTheAcceptedRequest : Prop :=
  ∀ (s : State) (w : Word) (rest : List Word) (i : Instr),
    s.seq = .idle → s.resets = [] → s.requests = w :: rest → decode w = .ok i →
    step s = exec i (takeRequest w rest s) ∧
      (takeRequest w rest s).events = s.events ++ [.req w] ∧ (takeRequest w rest s).seq = .busy w ∧
      (takeRequest w rest s).requests = rest ∧ (takeRequest w rest s).bl = s.bl ∧
      (takeRequest w rest s).initState = s.initState ∧ (takeRequest w rest s).initErr = s.initErr ∧
      (takeRequest w rest s).text = s.text ∧ (takeRequest w rest s).timer = s.timer ∧
      (takeRequest w rest s).params = s.params ∧ (takeRequest w rest s).pins = s.pins ∧
      (takeRequest w rest s).latches = s.latches ∧ (takeRequest w rest s).answers = s.answers ∧
      (takeRequest w rest s).resets = s.resets

/-- R212: every request, well formed or not, is answered with a next state in every state. -/
def Obligations.EveryRequestHasANextState : Prop := ∀ (i : Instr) (s : State), ∃ t, exec i s = .next t

/-- R202: an ILLEGAL word writes no state, makes no bus write and no delay, and is answered `RSP(0x0002)`. -/
def Obligations.IllegalWordIsOnlyAnswered : Prop :=
  ∀ (s : State) (w : Word) (rest : List Word),
    s.seq = .idle → s.resets = [] → s.requests = w :: rest → legal w = false →
    ∃ t, step s = .next t ∧ t.events = s.events ++ [.req w, .rsp 0x0002] ∧ t.seq = .idle ∧ t.requests = rest ∧
      t.bl = s.bl ∧ t.initState = s.initState ∧ t.initErr = s.initErr ∧ t.text = s.text ∧ t.timer = s.timer ∧
      t.params = s.params ∧ t.pins = s.pins ∧ t.latches = s.latches ∧ t.answers = s.answers ∧ t.resets = s.resets

/-- R217: an IDLE bridge with no request presented and no reset asserted waits, however long, with all its state. -/
def Obligations.IdleBridgeWaits : Prop :=
  ∀ (n : Nat) (s : State), s.seq = .idle → s.requests = [] → s.resets = [] → core.run n s = .next s

/-- R21, R246: a bridge BUSY at a write that is never answered stays so for any number of steps; a request presented
meanwhile stays with the host. -/
def Obligations.HungBridgeStaysBusy : Prop :=
  ∀ (n : Nat) (s : State) (w : Word), s.seq = .busy w → s.resets = [] → core.run n s = .next s

/-- R230: reset gives every state of the bridge its reset value (the status byte 0x20) and makes no bus write; with no
write in progress the pins keep the value they had and nothing is latched. The mark of the reset is the model's (log
entry 6). -/
def Obligations.ResetOfAnIdleBridge : Prop :=
  ∀ (s : State) (rs : List Nat), s.seq = .idle → s.resets = 0 :: rs →
    ∃ t, step s = .next t ∧ t.bl = true ∧ t.initState = 0 ∧ t.initErr = false ∧ (∀ a, Memory.read t.text a = 0x00) ∧
      t.seq = .idle ∧ t.timer = none ∧ statusByte t = 0x20 ∧ t.events = s.events ++ [.reset] ∧ t.pins = s.pins ∧
      t.latches = s.latches ∧ t.params = s.params ∧ t.requests = s.requests ∧ t.answers = s.answers ∧ t.resets = rs

/-- R246, R232: reset ends a hang. The state takes its reset values and no response is returned; the pins and the
latches of the write in flight are left open. The mark of the reset is the model's (log entry 6). -/
def Obligations.ResetEndsAHang : Prop :=
  ∀ (s : State) (w : Word) (rs : List Nat), s.seq = .busy w → s.resets = 0 :: rs →
    ∃ t, step s = .next t ∧ t.bl = true ∧ t.initState = 0 ∧ t.initErr = false ∧ (∀ a, Memory.read t.text a = 0x00) ∧
      t.seq = .idle ∧ t.timer = none ∧ t.events = s.events ++ [.reset] ∧ t.params = s.params ∧
      t.requests = s.requests ∧ t.answers = s.answers ∧ t.resets = rs

/-- R232: a request during which reset takes effect is abandoned: no response is returned for it, nothing follows the
reset, and the state takes the values of R230. The mark of the reset is the model's (log entry 6). -/
def Obligations.ResetAbandonsTheRequest : Prop :=
  ∀ (i : Instr) (s t : State), exec i s = .next t → t.resets.length < s.resets.length →
    t.bl = true ∧ t.initState = 0 ∧ t.initErr = false ∧ (∀ a, Memory.read t.text a = 0x00) ∧ t.seq = .idle ∧
      t.timer = none ∧ ∃ es, t.events = s.events ++ es ++ [.reset] ∧ ∀ e ∈ es, e ≠ .reset ∧ ∀ r, e ≠ .rsp r

/-- R230, R231, R24: the state right after reset, with nothing presented to the bridge: the values of R230, the
parameters of R7, no bus write made, and a bridge that waits for a request. -/
def Obligations.StateAfterReset : Prop :=
  State.reset.bl = true ∧ State.reset.initState = 0 ∧ State.reset.initErr = false ∧
    (∀ a, Memory.read State.reset.text a = 0x00) ∧ State.reset.seq = .idle ∧ State.reset.timer = none ∧
    statusByte State.reset = 0x20 ∧ State.reset.pins = Config.pReset ∧ State.reset.events = [] ∧
    State.reset.params = ⟨0x27, 15000, 4100, 100, 37, 1520, 1520, 16⟩ ∧
    step State.reset = .next State.reset

/-! ### The transport write, the strobe and the framer -/

/-- R101, R37, R108: a transport write of b. Answered `ok`: true, the pins are b, and a latch exactly on a falling
edge of enable. Answered `fail`: false. Never answered: the bridge goes no further. It writes b as given, once, to
`SLAVE_ADDR`, and no state of the bridge. -/
def Obligations.TransportWriteOnEachAnswer : Prop :=
  ∀ (b : Byte) (s : State),
    (AnsweredAt 0 .ok s → ∃ t, transportWrite b s = .go true t ∧
      t.events = s.events ++ [.write s.params.slaveAddr b .ok] ∧
      t.pins = b ∧ t.answers = s.answers.drop 1 ∧ t.seq = s.seq ∧ Unchanged s t ∧
      t.latches = s.latches ++ (if s.pins.getLsbD 2 = true ∧ b.getLsbD 2 = false then
        [⟨b.extractLsb' 0 1, b.extractLsb' 1 1, b.extractLsb' 4 4⟩] else [])) ∧
    (AnsweredAt 0 .fail s → ∃ t, transportWrite b s = .go false t ∧
      t.events = s.events ++ [.write s.params.slaveAddr b .fail] ∧
      t.answers = s.answers.drop 1 ∧ t.seq = s.seq ∧ Unchanged s t) ∧
    (AnsweredAt 0 .never s → ∃ t, transportWrite b s = .stop t ∧
      t.events = s.events ++ [.write s.params.slaveAddr b .unanswered] ∧
      t.answers = s.answers.drop 1 ∧ t.seq = s.seq ∧ Unchanged s t)

/-- R106: every frame of the framer and every forced nibble has bits 3 and 2 equal to 0, and the strobe of such a
frame whose writes succeed writes exactly `c | 4 | blb`, `c | blb`, `c | 4 | blb`: enable SET, CLEAR, SET, and the
backlight bit equal to BL in all three. -/
def Obligations.StrobeWritesSetClearSet : Prop :=
  (∀ rs rw v, (frameHi rs rw v).extractLsb' 2 2 = 0 ∧ (frameLo rs rw v).extractLsb' 2 2 = 0) ∧
  (∀ n, (frameForced n).extractLsb' 2 2 = 0) ∧
  ∀ (c : Byte) (s : State), c.extractLsb' 2 2 = 0 → AllOk 3 s →
    ∃ t b₁ b₂ b₃, strobe c s = .go true t ∧ t.events = s.events ++ okWrites s.params.slaveAddr [b₁, b₂, b₃] ∧
      b₁ = c ||| 0x04 ||| blBit s.bl ∧ b₂ = c ||| blBit s.bl ∧ b₃ = b₁ ∧
      b₁.getLsbD 2 = true ∧ b₂.getLsbD 2 = false ∧ b₁.getLsbD 3 = s.bl ∧ b₂.getLsbD 3 = s.bl ∧
      t.latches = s.latches ++ [⟨c.extractLsb' 0 1, c.extractLsb' 1 1, c.extractLsb' 4 4⟩] ∧
      t.answers = s.answers.drop 3 ∧ t.seq = s.seq ∧ Unchanged s t

/-- R105: a strobe stops at a failed first or second write and returns the third write's answer otherwise; no write is
made after a failed one. When the third write fails the falling edge was made. -/
def Obligations.StrobeStopsAtAFailedWrite : Prop :=
  ∀ (c : Byte) (s : State),
    (AllOk 3 s → ∃ t, strobe c s = .go true t ∧ t.events = s.events ++
      okWrites s.params.slaveAddr [(c ||| 0x04) ||| blBit s.bl,
      (c ||| blBit s.bl) &&& 0xFB, (c ||| 0x04) ||| blBit s.bl] ∧ t.seq = s.seq ∧ Unchanged s t) ∧
    ∀ k, k < 3 → AnsweredAt k .fail s → ∃ t, strobe c s = .go false t ∧
      t.events = s.events ++ writesUpTo s.params.slaveAddr [(c ||| 0x04) ||| blBit s.bl, (c ||| blBit s.bl) &&& 0xFB,
        (c ||| 0x04) ||| blBit s.bl] k .fail ∧
      (k = 2 → s.latches ++ [⟨c.extractLsb' 0 1, c.extractLsb' 1 1, c.extractLsb' 4 4⟩] <+: t.latches) ∧
      t.answers = s.answers.drop (k + 1) ∧ t.seq = s.seq ∧ Unchanged s t

/-- R110: whatever the environment, a strobe that returns true leaves the enable pin set; and a strobe's first write
never latches, whatever byte a failed strobe left on the pins. -/
def Obligations.SuccessfulStrobeLeavesEnableSet : Prop :=
  (∀ (c : Byte) (s t : State), strobe c s = .go true t → t.pins.getLsbD 2 = true) ∧
    ∀ c p blb : Byte, latchOf p ((c ||| 0x04) ||| blb) = none

/-- R121: send8 strobes the high nibble, then the low one; a failure stops it at the failed write, and every write
lies in the six of the byte transfer. It adds no delay. -/
def Obligations.Send8StrobesHighThenLow : Prop :=
  ∀ (rs : Line) (v : Byte) (s : State),
    (AllOk 6 s → ∃ t, send8 rs 0 v s = .go true t ∧ t.events = s.events ++
      okWrites s.params.slaveAddr (transferBytes s.bl rs v) ∧
      t.answers = s.answers.drop 6 ∧ t.seq = s.seq ∧ Unchanged s t) ∧
    ∀ k, k < 6 → AnsweredAt k .fail s → ∃ t, send8 rs 0 v s = .go false t ∧
      t.events = s.events ++ writesUpTo s.params.slaveAddr (transferBytes s.bl rs v) k .fail ∧
      t.answers = s.answers.drop (k + 1) ∧ t.seq = s.seq ∧ Unchanged s t

/-- R122: a forced nibble is one strobe with RS and RW off, so one to three writes and no delay. -/
def Obligations.ForcedNibbleIsOneStrobe : Prop :=
  ∀ (n : Nibble) (s : State),
    (AllOk 3 s → ∃ t, send4f n s = .go true t ∧ t.events = s.events ++
      okWrites s.params.slaveAddr (strobeBytes s.bl 0 n) ∧
      t.latches = s.latches ++ [⟨0, 0, n⟩] ∧ t.seq = s.seq ∧ Unchanged s t) ∧
    ∀ k, k < 3 → AnsweredAt k .fail s → ∃ t, send4f n s = .go false t ∧
      t.events = s.events ++ writesUpTo s.params.slaveAddr (strobeBytes s.bl 0 n) k .fail ∧ t.seq = s.seq ∧
        Unchanged s t

/-- R130: cmd takes its delay whether or not a write failed, and returns the result of its send8. -/
def Obligations.CommandHelperWaitsAfterAFailureToo : Prop :=
  ∀ (opc : Byte) (d : Nat) (s : State),
    (AllOk 6 s → ∃ t, cmd opc d s = .go true t ∧
      t.events = s.events ++ okWrites s.params.slaveAddr (transferBytes s.bl 0 opc) ++ waitEvents d ∧
        t.answers = s.answers.drop 6 ∧
      t.seq = s.seq ∧ Unchanged { s with timer := if d = 0 then s.timer else none } t) ∧
    ∀ k, k < 6 → AnsweredAt k .fail s → ∃ t, cmd opc d s = .go false t ∧
      t.events = s.events ++ writesUpTo s.params.slaveAddr (transferBytes s.bl 0 opc) k .fail ++ waitEvents d ∧
      t.answers = s.answers.drop (k + 1) ∧ t.seq = s.seq ∧
      Unchanged { s with timer := if d = 0 then s.timer else none } t

/-! ### Byte transfer and the command set -/

/-- R123: SEND8 with RW = 0 and every write answered `ok`. It writes no state of the bridge and takes no delay. -/
def Obligations.Send8Completes : Prop :=
  ∀ (rs : Line) (v : Byte) (s : State), AllOk 6 s →
    ∃ t, exec (.send8 0 rs v) s = .next t ∧
      t.events = s.events ++ okWrites s.params.slaveAddr (transferBytes s.bl rs v) ++ [.rsp 0x0000] ∧
      t.pins = pinByte (v.extractLsb' 0 4) s.bl true rs ∧ t.latches = s.latches ++ transferLatches rs v ∧
      t.answers = s.answers.drop 6 ∧ t.seq = .idle ∧ Unchanged s t

/-- R123, R203: SEND8 with its write number `k` (from 0) the first answered `fail`: no further write, and FAIL. -/
def Obligations.Send8FailsAtTheFailedWrite : Prop :=
  ∀ (rs : Line) (v : Byte) (s : State) (k : Nat), k < 6 → AnsweredAt k .fail s →
    ∃ t, exec (.send8 0 rs v) s = .next t ∧
      t.events = s.events ++ writesUpTo s.params.slaveAddr (transferBytes s.bl rs v) k .fail ++ [.rsp 0x0001] ∧
      t.answers = s.answers.drop (k + 1) ∧ t.seq = .idle ∧ Unchanged s t

/-- R76: SEND8 with RW = 1 is ILLEGAL: one response, nothing written, and no word with RW = 1 decodes to a SEND8. -/
def Obligations.Send8RefusesToRead : Prop :=
  (∀ (rs : Line) (v : Byte) (s : State), s.resets = [] →
    ∃ t, exec (.send8 1 rs v) s = .next t ∧ t.events = s.events ++ [.rsp 0x0002] ∧ t.pins = s.pins ∧
      t.latches = s.latches ∧ t.answers = s.answers ∧ t.seq = .idle ∧ Unchanged s t) ∧
  ∀ w : Word, opField w = 0x1 → w.extractLsb' 9 1 = 1 → ∃ e, decode w = .error e

/-- R109: with every write answered `ok`, the two latches of a byte transfer reassemble to its register-select and value
(the pairing is the model's observation, log entry 13). -/
def Obligations.ByteTransferReassembles : Prop :=
  ∀ (rs : Line) (v : Byte) (s : State), AllOk 6 s →
    ∃ t, exec (.send8 0 rs v) s = .next t ∧ s.latches <+: t.latches ∧
      t.latches.drop s.latches.length = [⟨rs, 0, v.extractLsb' 4 4⟩, ⟨rs, 0, v.extractLsb' 0 4⟩] ∧
      receivedBytes (t.latches.drop s.latches.length) = [(rs, v)]

/-- R109: from any latch on, every two consecutive latches are one received byte, the first as bits 7:4 and the second
as bits 3:0; its register-select is that of both when they agree (when they differ it is left open, log entry 13), and
only an odd latch at the end is no byte yet. -/
def Obligations.EveryTwoLatchesAreOneByte : Prop :=
  ∀ ls : List Latch, (receivedBytes ls).length = ls.length / 2 ∧
    ∀ (k : Nat) (a b : Latch), ls[2 * k]? = some a → ls[2 * k + 1]? = some b →
      ∃ rs, (receivedBytes ls)[k]? = some (rs, a.nibble ++ b.nibble) ∧ (a.rs = b.rs → rs = a.rs)

/-- R131 to R137, R138: each request of the command set with every write answered `ok`: six writes of its LCD byte to
the instruction register, its post-delay, then OK. -/
def Obligations.CommandsComplete : Prop :=
  ∀ (i : Instr) (opc : Byte) (d : Nat) (s : State), command s.params i = some (opc, d) → AllOk 6 s →
    ∃ t, exec i s = .next t ∧
      t.events = s.events ++ okWrites s.params.slaveAddr (transferBytes s.bl 0 opc) ++ waitEvents d ++ [.rsp 0x0000] ∧
      t.pins = pinByte (opc.extractLsb' 0 4) s.bl true 0 ∧ t.latches = s.latches ++ transferLatches 0 opc ∧
      t.answers = s.answers.drop 6 ∧ t.seq = .idle ∧
      Unchanged { s with timer := if d = 0 then s.timer else none } t

/-- R138, R130: each request of the command set with its write number `k` (from 0) the first answered `fail`: no further
write, its post-delay all the same, then FAIL. -/
def Obligations.CommandsFailAfterTheirDelay : Prop :=
  ∀ (i : Instr) (opc : Byte) (d : Nat) (s : State) (k : Nat), command s.params i = some (opc, d) → k < 6 →
    AnsweredAt k .fail s →
    ∃ t, exec i s = .next t ∧
      t.events = s.events ++ writesUpTo s.params.slaveAddr (transferBytes s.bl 0 opc) k .fail ++ waitEvents d ++
        [.rsp 0x0001] ∧
      t.answers = s.answers.drop (k + 1) ∧ t.seq = .idle ∧
      Unchanged { s with timer := if d = 0 then s.timer else none } t

/-- R134: CLEAR takes the parameter `T_CLEAR_US` as its post-delay, 1520 after reset; with 0 the response follows the
last write. Word 0x6000 and no other. -/
def Obligations.ClearWaitsTheConfiguredTime : Prop :=
  State.reset.params.tClearUs = 1520 ∧ OnlyWord 0x6000 .clear ∧
  ∀ s : State, AllOk 6 s → ∃ t, exec .clear s = .next t ∧
    t.events = s.events ++ okWrites s.params.slaveAddr (transferBytes s.bl 0 0x01) ++
      (if s.params.tClearUs = 0 then [] else [.delay s.params.tClearUs]) ++ [.rsp 0x0000]

/-- R137: SETDDRAM's word, its LCD byte `0x80 | zext8(ADDR)` for every ADDR, its post-delay `T_CMD_US`, 37 after
reset, and the ILLEGAL words of its opcode. -/
def Obligations.SetddramSendsEveryAddress : Prop :=
  State.reset.params.tCmdUs = 37 ∧
  (∀ addr : BitVec 7, decode (0x9000 ||| addr.setWidth 16) = .ok (.setddram addr)) ∧
  (∀ w : Word, opField w = 0x9 → w.extractLsb' 7 5 ≠ 0 → ∃ e, decode w = .error e) ∧
  ∀ (addr : BitVec 7) (s : State), AllOk 6 s → ∃ t, exec (.setddram addr) s = .next t ∧
    t.events = s.events ++ okWrites s.params.slaveAddr (transferBytes s.bl 0 (0x80 ||| addr.setWidth 8)) ++
      waitEvents s.params.tCmdUs ++ [.rsp 0x0000]

/-- R250: the response to a command begins at least its post-delay after the last write ended (times: log entry 7). -/
def Obligations.CommandResponseWaitsItsDelay : Prop :=
  ∀ (i : Instr) (opc : Byte) (d : Nat) (s : State), command s.params i = some (opc, d) → AllOk 6 s →
    ∃ t pre last post r, exec i s = .next t ∧ t.log = s.log ++ pre ++ [last] ++ post ++ [r] ∧
      (pre ++ [last]).length = 6 ∧ last.event = .write s.params.slaveAddr (pinByte (opc.extractLsb' 0 4) s.bl true 0) .ok ∧
      post.map Timed.event = waitEvents d ∧ r.event = .rsp 0x0000 ∧ last.stop + d ≤ r.start

/-! ### Backlight -/

/-- R150: BLON (word 0xA000 and no other) sets BL first and whatever the answer, makes one write of 0x0C whether or not
BL was already 1, takes no delay, and answers OK or FAIL with the write's answer; answered `ok` it makes no latch. -/
def Obligations.BacklightOnSetsFlagAndWrites : Prop :=
  OnlyWord 0xA000 .blon ∧
  ∀ s : State,
    (AllOk 1 s → ∃ t, exec .blon s = .next t ∧ t.events = s.events ++
      [.write s.params.slaveAddr 0x0C .ok, .rsp 0x0000] ∧
      t.pins = 0x0C ∧ t.latches = s.latches ∧ t.answers = s.answers.drop 1 ∧ t.seq = .idle ∧
      Unchanged { s with bl := true } t) ∧
    (AnsweredAt 0 .fail s → ∃ t, exec .blon s = .next t ∧
      t.events = s.events ++ [.write s.params.slaveAddr 0x0C .fail, .rsp 0x0001] ∧ t.answers = s.answers.drop 1 ∧
        t.seq = .idle ∧
      Unchanged { s with bl := true } t)

/-- R151: BLOFF (word 0xB000 and no other) clears BL first and whatever the answer, makes one write of 0x04, takes no
delay, and answers OK or FAIL with the write's answer; answered `ok` it makes no latch. -/
def Obligations.BacklightOffClearsFlagAndWrites : Prop :=
  OnlyWord 0xB000 .bloff ∧
  ∀ s : State,
    (AllOk 1 s → ∃ t, exec .bloff s = .next t ∧ t.events = s.events ++
      [.write s.params.slaveAddr 0x04 .ok, .rsp 0x0000] ∧
      t.pins = 0x04 ∧ t.latches = s.latches ∧ t.answers = s.answers.drop 1 ∧ t.seq = .idle ∧
      Unchanged { s with bl := false } t) ∧
    (AnsweredAt 0 .fail s → ∃ t, exec .bloff s = .next t ∧
      t.events = s.events ++ [.write s.params.slaveAddr 0x04 .fail, .rsp 0x0001] ∧ t.answers = s.answers.drop 1 ∧
        t.seq = .idle ∧
      Unchanged { s with bl := false } t)

/-! ### Initialisation -/

/-- R160, R161, R163: INIT (word 0xC000 and no other) with every write answered `ok` emits the events of the table in
order, latches the nibbles 3, 3, 3, 2, 2, 8, 0, 8, 0, 1, 0, 6 with RS = 0 and RW = 0, and leaves Ready without error; it
makes 36 writes. With the hardware's parameters the waits are those of R163: 15000 first, and in all 20831 µs with
`T_CLEAR_US = 1520` and 19311 µs with 0. -/
def Obligations.InitCompletes : Prop :=
  OnlyWord 0xC000 .init ∧
  (∀ bl p, ((initRows bl p).flatMap InitRow.bytes).length = 36) ∧
  (∀ bl t, (initRows bl { Config.hardware with tClearUs := t }).map InitRow.wait = [4100, 100, 0, 0, 37, 37, t, 37]) ∧
  State.reset.params = Config.hardware ∧ Config.hardware.tPwrUs = 15000 ∧
  (∀ bl, 15000 + ((initRows bl { Config.hardware with tClearUs := 1520 }).map InitRow.wait).sum = 20831 ∧
    15000 + ((initRows bl { Config.hardware with tClearUs := 0 }).map InitRow.wait).sum = 19311) ∧
  ∀ s : State, AllOk 36 s → ∃ t, exec .init s = .next t ∧
    t.events = s.events ++ waitEvents s.params.tPwrUs ++ initEvents s.params.slaveAddr (initRows s.bl s.params) ++
      [.rsp 0x0000] ∧
    t.latches = s.latches ++ ([3, 3, 3, 2, 2, 8, 0, 8, 0, 1, 0, 6] : List Nibble).map (fun n => ⟨0, 0, n⟩) ∧
    t.pins = pinByte 6 s.bl true 0 ∧ t.answers = s.answers.drop 36 ∧ t.seq = .idle ∧
    t.timer = (if s.params.tPwrUs + ((initRows s.bl s.params).map InitRow.wait).sum = 0 then s.timer else none) ∧
    t.initState = 9 ∧ t.initErr = false ∧ t.bl = s.bl ∧ t.text = s.text ∧ t.params = s.params ∧
    t.requests = s.requests ∧ t.resets = s.resets

/-- R164, R162: when write number `k` (from 0) of table row number `j` (from 0) is the first answered `fail`, INIT emits
the rows before it, the row's writes up to it and the row's wait, answers FAIL, and leaves `INIT_ERR = 1` and
`INIT_STATE = j`, the last state entered, so that the status byte is `0x30 | j` when BL is 1. With the
hardware's parameters the rows' waits are those of R164. -/
def Obligations.InitAbortsAtTheFailedStep : Prop :=
  (∀ bl t, (initRows bl { Config.hardware with tClearUs := t }).map InitRow.wait = [4100, 100, 0, 0, 37, 37, t, 37]) ∧
  State.reset.params = Config.hardware ∧
  ∀ (s : State) (j k : Nat) (row : InitRow), (initRows s.bl s.params)[j]? = some row → k < row.bytes.length →
    AnsweredAt ((((initRows s.bl s.params).take j).flatMap InitRow.bytes).length + k) .fail s →
    ∃ t, exec .init s = .next t ∧
      t.events = s.events ++ waitEvents s.params.tPwrUs ++ initEvents s.params.slaveAddr ((initRows s.bl s.params).take j) ++
        writesUpTo s.params.slaveAddr row.bytes k .fail ++ waitEvents row.wait ++ [.rsp 0x0001] ∧
      t.initErr = true ∧ t.initState = BitVec.ofNat 4 j ∧
      (s.bl = true → statusByte t = 0x30 ||| BitVec.ofNat 8 j) ∧ t.seq = .idle ∧
      t.timer = (if s.params.tPwrUs + (((initRows s.bl s.params).take (j + 1)).map InitRow.wait).sum = 0 then s.timer
        else none) ∧ t.bl = s.bl ∧
      t.text = s.text ∧ t.params = s.params ∧ t.requests = s.requests ∧ t.resets = s.resets

/-! ### Text and status -/

/-- R180, R51: every word of opcode 0xD is an LDTXT with its index and byte. LDTXT stores its byte at its index and
leaves every other byte of the buffer alone; no bus write, no delay; OK. -/
def Obligations.LdtxtStoresOneByte : Prop :=
  (∀ w : Word, opField w = 0xD → decode w = .ok (.ldtxt (w.extractLsb' 8 4) (w.extractLsb' 0 8))) ∧
  ∀ (idx : BitVec 4) (byte : Byte) (s : State), s.resets = [] → Memory.wf s.text = true →
    ∃ t, exec (.ldtxt idx byte) s = .next t ∧ t.events = s.events ++ [.rsp 0x0000] ∧
      Memory.read t.text idx.toNat = byte ∧ (∀ a, a ≠ idx.toNat → Memory.read t.text a = Memory.read s.text a) ∧
      t.bl = s.bl ∧ t.initState = s.initState ∧ t.initErr = s.initErr ∧ t.timer = s.timer ∧ t.params = s.params ∧
      t.pins = s.pins ∧ t.latches = s.latches ∧ t.answers = s.answers ∧ t.requests = s.requests ∧
      t.resets = s.resets ∧ t.seq = .idle

/-- R182, R181: PRINT (word 0xE000 and no other) of a text of n characters. With every write answered `ok`: the six
writes of each character in order with RS = 1, no delay, and OK with count n. When its write number `m` (from 0) is
the first answered `fail`: no further write, and FAIL with `m div 6`, the count of characters fully transferred. -/
def Obligations.PrintSendsTheTextAndAnswersTheCount : Prop :=
  OnlyWord 0xE000 .print ∧
  ∀ s : State,
    (AllOk (6 * (printedText s).length) s → ∃ t, exec .print s = .next t ∧
      t.events = s.events ++ okWrites s.params.slaveAddr (textBytes s.bl (printedText s)) ++
        [.rsp (BitVec.ofNat 8 (printedText s).length ++ 0x00#8)] ∧
      t.latches = s.latches ++ (printedText s).flatMap (transferLatches 1) ∧
      t.answers = s.answers.drop (6 * (printedText s).length) ∧ t.seq = .idle ∧ Unchanged s t) ∧
    (∀ m, m < 6 * (printedText s).length → AnsweredAt m .fail s → ∃ t, exec .print s = .next t ∧
      t.events = s.events ++ writesUpTo s.params.slaveAddr (textBytes s.bl (printedText s)) m .fail ++
        [.rsp (BitVec.ofNat 8 (m / 6) ++ 0x01#8)] ∧
      t.answers = s.answers.drop (m + 1) ∧ t.seq = .idle ∧ Unchanged s t) ∧
    (textBytes s.bl (printedText s)).length = 6 * (printedText s).length ∧
      (printedText s).length ≤ s.params.textLen ∧ State.reset.params.textLen = 16

/-- R181: bytes after the first 0x00 are never read: two buffers that agree up to it print alike. -/
def Obligations.PrintReadsNothingPastTheTerminator : Prop :=
  ∀ (s t : State) (m : Memory), (∃ n, Memory.read s.text n = 0x00 ∧
    ∀ a, a ≤ n → Memory.read m a = Memory.read s.text a) →
    exec .print s = .next t → t.resets.length = s.resets.length →
      exec .print { s with text := m } = .next { t with text := m }

/-- R190, R39: STATUS (word 0xF000 and no other) answers OK with the status byte, bits 3:0 INIT_STATE, bit 4 INIT_ERR,
bit 5 BL and bits 7:6 zero, writes no state and makes no bus write and no delay. -/
def Obligations.StatusAnswersTheStatusByte : Prop :=
  OnlyWord 0xF000 .status ∧
  (∀ s : State, (statusByte s).extractLsb' 0 4 = s.initState ∧ (statusByte s).getLsbD 4 = s.initErr ∧
    (statusByte s).getLsbD 5 = s.bl ∧ (statusByte s).extractLsb' 6 2 = 0) ∧
  ∀ s : State, s.resets = [] → ∃ t, exec .status s = .next t ∧
    t.events = s.events ++ [.rsp (statusByte s ++ 0x00#8)] ∧ t.pins = s.pins ∧ t.latches = s.latches ∧
    t.answers = s.answers ∧ t.seq = .idle ∧ Unchanged s t

/-! ### Whole-machine rules -/

/-- R165, R31, R32: no request but INIT changes `INIT_STATE` or `INIT_ERR`, unless a reset takes effect. -/
def Obligations.OnlyInitWritesInitState : Prop :=
  ∀ (i : Instr) (s t : State), i ≠ .init → exec i s = .next t → t.resets.length = s.resets.length →
    t.initState = s.initState ∧ t.initErr = s.initErr

/-- R25: no request but BLON and BLOFF changes BL, unless a reset takes effect. -/
def Obligations.OnlyBacklightRequestsWriteBL : Prop :=
  ∀ (i : Instr) (s t : State), i ≠ .blon → i ≠ .bloff → exec i s = .next t → t.resets.length = s.resets.length →
    t.bl = s.bl

/-- R33: no request but LDTXT changes the text buffer, unless a reset takes effect. -/
def Obligations.OnlyLdtxtWritesText : Prop :=
  ∀ (i : Instr) (s t : State), (∀ idx byte, i ≠ .ldtxt idx byte) → exec i s = .next t →
    t.resets.length = s.resets.length → t.text = s.text

/-- R204: LDTXT and STATUS make no bus write and cannot fail: whatever the bus would answer, the only events they can
add are an OK response, or the reset that comes before it (the model's mark, log entry 6). -/
def Obligations.LdtxtAndStatusCannotFail : Prop :=
  ∀ (i : Instr) (s t : State), (i = .status ∨ ∃ idx byte, i = .ldtxt idx byte) → exec i s = .next t →
    (∃ data : Byte, t.events = s.events ++ [.rsp (data ++ 0x00#8)]) ∨ t.events = s.events ++ [.reset]

/-- R252: with every write answered `ok`, SEND8 and each command make 6 writes, BLON and BLOFF 1, INIT 36, PRINT 6 per
character, LDTXT and STATUS 0; the request's writes are its bytes in order, and its response has CODE = OK. -/
def Obligations.EveryRequestMakesItsWrites : Prop :=
  ∀ (i : Instr) (s : State), i.wellFormed = true → AllOk (requestBytes s i).length s →
    (∃ t es r, exec i s = .next t ∧ t.events = s.events ++ es ++ [.rsp r] ∧ r.extractLsb' 0 8 = 0x00 ∧
      es.filter isWrite = okWrites s.params.slaveAddr (requestBytes s i) ∧ (∀ e ∈ es, ∀ r, e ≠ .rsp r) ∧
        t.seq = .idle) ∧
    (requestBytes s i).length = (match i with
      | .send8 _ _ _ => 6
      | .fnset => 6
      | .dispon => 6
      | .dispoff => 6
      | .clear => 6
      | .entry => 6
      | .home => 6
      | .setddram _ => 6
      | .blon => 1
      | .bloff => 1
      | .init => 36
      | .ldtxt _ _ => 0
      | .print => 6 * (printedText s).length
      | .status => 0)

/-- R203, R207: for every request, with its write number `k` (from 0) the first answered `fail`, the writes it makes
are its first `k` and that one, and its response has CODE = FAIL. -/
def Obligations.FailedWriteIsTheLastWrite : Prop :=
  ∀ (i : Instr) (s : State) (k : Nat), i.wellFormed = true → k < (requestBytes s i).length → AnsweredAt k .fail s →
    ∃ t es r, exec i s = .next t ∧ t.events = s.events ++ es ++ [.rsp r] ∧ r.extractLsb' 0 8 = 0x01 ∧
      es.filter isWrite = writesUpTo s.params.slaveAddr (requestBytes s i) k .fail ∧ (∀ e ∈ es, ∀ r, e ≠ .rsp r) ∧
        t.seq = .idle

/-- R246, R58: for every request, a write that the bus never answers is the last event it adds, no response is given,
and the bridge is BUSY with it for any number of further steps. -/
def Obligations.UnansweredWriteHangsTheBridge : Prop :=
  ∀ (i : Instr) (s : State) (k : Nat) (w : Word), i.wellFormed = true → s.seq = .busy w →
    k < (requestBytes s i).length → AnsweredAt k .never s →
    ∃ t es, exec i s = .next t ∧ t.events = s.events ++ es ∧
      es.filter isWrite = writesUpTo s.params.slaveAddr (requestBytes s i) k .unanswered ∧ (∀ e ∈ es, ∀ r, e ≠ .rsp r) ∧
      t.seq = .busy w ∧ ∀ n, core.run n t = .next t

/-- R250: no state of the bridge depends on how long anything took: at another time of day a request does the same but
for the times of its events. -/
def Obligations.TimeIsNeverRead : Prop :=
  ∀ (i : Instr) (s t : State) (n : Nat), exec i s = .next t →
    ∃ log now, exec i { s with now := n } = .next { t with log := log, now := now } ∧
      log.map Timed.event = t.log.map Timed.event

/-! ### Invariants that every step keeps -/

/-- R7: the parameters are arguments of the machine: from every state, whatever they are, no step changes them (log
entry 10). -/
def Obligations.NoStepChangesTheParameters : Prop := ∀ s t : State, step s = .next t → t.params = s.params

/-- R51, R31, R164, R213: from every state with the structural invariant, a step gives one with it. -/
def Obligations.StepKeepsStructure : Prop := ∀ s t : State, Inv s → step s = .next t → Inv t

/-- R21, R26, R29, R81, R152, R202, R203, R232, R246: from every state whose event sequence follows the protocol
monitor, a step gives one whose sequence does (the mark of a reset in it and the event of a write it cuts off are the
model's, log entry 6). -/
def Obligations.StepFollowsTheProtocol : Prop := ∀ s t : State, Follows s → step s = .next t → Follows t

/-- R250, R57: from every state whose event sequence keeps the time order and the lower bound of every delay, a step
gives one whose sequence does (times: log entry 7; a wait that reset cuts short leaves no
delay event: log entry 20). -/
def Obligations.StepKeepsEveryDelay : Prop := ∀ s t : State, OnTime s → step s = .next t → OnTime t

/-- R230: the state after reset meets the three invariants. -/
def Obligations.ResetMeetsTheInvariants : Prop := Inv State.reset ∧ Follows State.reset ∧ OnTime State.reset
end

