-- ==== Sys2Proof/Laws/Decode.lean ====
section
/-! SUPPORT. The fields of a word as numbers, so that encoding questions become arithmetic. -/

namespace Sys2Proof

/-- Concatenation, high part first (R9), as a number. -/
theorem append_toNat {n m : Nat} (x : BitVec n) (y : BitVec m) : (x ++ y).toNat = x.toNat * 2 ^ m + y.toNat := by
  rw [BitVec.toNat_append, ← Nat.shiftLeft_add_eq_or_of_lt y.isLt, Nat.shiftLeft_eq]

/-- The field of `n` bits from bit `lo` up (R9), as a number. -/
theorem field_toNat {m : Nat} (w : BitVec m) (lo n : Nat) : (w.extractLsb' lo n).toNat = w.toNat / 2 ^ lo % 2 ^ n := by
  simp [BitVec.extractLsb'_toNat, Nat.shiftRight_eq_div_pow]

/-- The opcode is the top nibble (R70). -/
theorem opField_toNat (w : Word) : (opField w).toNat = w.toNat / 4096 := by
  have := w.isLt
  rw [opField, field_toNat]
  omega

/-- A field is 0 exactly when it is 0 as a number. -/
theorem field_eq_zero {m : Nat} (w : BitVec m) (lo n : Nat) : w.extractLsb' lo n = 0 ↔ w.toNat / 2 ^ lo % 2 ^ n = 0 := by
  rw [← field_toNat, BitVec.toNat_eq]
  simp

end Sys2Proof
end

