-- ==== Sys2Proof/Laws/State.lean ====
section
/-! SUPPORT. Each field of the state after each update of it, so that no later proof unfolds a record update; and the event
sequence after each update. -/

namespace Sys2Proof.Machine

/-! ### `record` -/

@[simp] theorem record_bl (e : Event) (a b : Nat) (s : State) : (record e a b s).bl = s.bl := rfl
@[simp] theorem record_initState (e : Event) (a b : Nat) (s : State) : (record e a b s).initState = s.initState := rfl
@[simp] theorem record_initErr (e : Event) (a b : Nat) (s : State) : (record e a b s).initErr = s.initErr := rfl
@[simp] theorem record_text (e : Event) (a b : Nat) (s : State) : (record e a b s).text = s.text := rfl
@[simp] theorem record_seq (e : Event) (a b : Nat) (s : State) : (record e a b s).seq = s.seq := rfl
@[simp] theorem record_timer (e : Event) (a b : Nat) (s : State) : (record e a b s).timer = s.timer := rfl
@[simp] theorem record_params (e : Event) (a b : Nat) (s : State) : (record e a b s).params = s.params := rfl
@[simp] theorem record_pins (e : Event) (a b : Nat) (s : State) : (record e a b s).pins = s.pins := rfl
@[simp] theorem record_requests (e : Event) (a b : Nat) (s : State) : (record e a b s).requests = s.requests := rfl
@[simp] theorem record_resets (e : Event) (a b : Nat) (s : State) : (record e a b s).resets = s.resets := rfl
@[simp] theorem record_answers (e : Event) (a b : Nat) (s : State) : (record e a b s).answers = s.answers := rfl
@[simp] theorem record_free (e : Event) (a b : Nat) (s : State) : (record e a b s).free = s.free + 1 := rfl
@[simp] theorem record_now (e : Event) (a b : Nat) (s : State) : (record e a b s).now = b := rfl
@[simp] theorem record_log (e : Event) (a b : Nat) (s : State) : (record e a b s).log = s.log ++ [⟨e, a, b⟩] := rfl
@[simp] theorem record_latches (e : Event) (a b : Nat) (s : State) : (record e a b s).latches = s.latches := rfl
@[simp] theorem record_events (e : Event) (a b : Nat) (s : State) :
    (record e a b s).events = s.events ++ [e] := by
  simp [State.events, record_log]

/-! ### `takeReset` -/

@[simp] theorem takeReset_bl (s : State) : (takeReset s).bl = true := rfl
@[simp] theorem takeReset_initState (s : State) : (takeReset s).initState = 0 := rfl
@[simp] theorem takeReset_initErr (s : State) : (takeReset s).initErr = false := rfl
@[simp] theorem takeReset_text (s : State) : (takeReset s).text = [] := rfl
@[simp] theorem takeReset_seq (s : State) : (takeReset s).seq = .idle := rfl
@[simp] theorem takeReset_timer (s : State) : (takeReset s).timer = none := rfl
@[simp] theorem takeReset_params (s : State) : (takeReset s).params = s.params := rfl
@[simp] theorem takeReset_pins (s : State) : (takeReset s).pins = s.pins := rfl
@[simp] theorem takeReset_requests (s : State) : (takeReset s).requests = s.requests := rfl
@[simp] theorem takeReset_resets (s : State) : (takeReset s).resets = s.resets := rfl
@[simp] theorem takeReset_answers (s : State) : (takeReset s).answers = s.answers := rfl
@[simp] theorem takeReset_free (s : State) : (takeReset s).free = s.free + 1 := rfl
@[simp] theorem takeReset_now (s : State) : (takeReset s).now = s.now := rfl
@[simp] theorem takeReset_log (s : State) : (takeReset s).log = s.log ++ [⟨.reset, s.now, s.now⟩] := rfl
@[simp] theorem takeReset_latches (s : State) : (takeReset s).latches = s.latches := rfl
@[simp] theorem takeReset_events (s : State) :
    (takeReset s).events = s.events ++ [.reset] := by
  simp [State.events, takeReset_log]

/-! ### `disturb` -/

@[simp] theorem disturb_bl (s : State) : (disturb s).bl = s.bl := rfl
@[simp] theorem disturb_initState (s : State) : (disturb s).initState = s.initState := rfl
@[simp] theorem disturb_initErr (s : State) : (disturb s).initErr = s.initErr := rfl
@[simp] theorem disturb_text (s : State) : (disturb s).text = s.text := rfl
@[simp] theorem disturb_seq (s : State) : (disturb s).seq = s.seq := rfl
@[simp] theorem disturb_timer (s : State) : (disturb s).timer = s.timer := rfl
@[simp] theorem disturb_params (s : State) : (disturb s).params = s.params := rfl
@[simp] theorem disturb_pins (s : State) : (disturb s).pins = Config.pinsAny s.free := rfl
@[simp] theorem disturb_requests (s : State) : (disturb s).requests = s.requests := rfl
@[simp] theorem disturb_resets (s : State) : (disturb s).resets = s.resets := rfl
@[simp] theorem disturb_answers (s : State) : (disturb s).answers = s.answers := rfl
@[simp] theorem disturb_free (s : State) : (disturb s).free = s.free + 1 := rfl
@[simp] theorem disturb_now (s : State) : (disturb s).now = s.now := rfl
@[simp] theorem disturb_log (s : State) : (disturb s).log = s.log := rfl
@[simp] theorem disturb_latches (s : State) : (disturb s).latches = s.latches ++ (Config.latchAny s.free).toList := rfl
@[simp] theorem disturb_events (s : State) : (disturb s).events = s.events := rfl

/-! ### `takeRequest` -/

@[simp] theorem takeRequest_bl (w : Word) (rest : List Word) (s : State) : (takeRequest w rest s).bl = s.bl := rfl
@[simp] theorem takeRequest_initState (w : Word) (rest : List Word) (s : State) : (takeRequest w rest s).initState = s.initState := rfl
@[simp] theorem takeRequest_initErr (w : Word) (rest : List Word) (s : State) : (takeRequest w rest s).initErr = s.initErr := rfl
@[simp] theorem takeRequest_text (w : Word) (rest : List Word) (s : State) : (takeRequest w rest s).text = s.text := rfl
@[simp] theorem takeRequest_seq (w : Word) (rest : List Word) (s : State) : (takeRequest w rest s).seq = .busy w := rfl
@[simp] theorem takeRequest_timer (w : Word) (rest : List Word) (s : State) : (takeRequest w rest s).timer = s.timer := rfl
@[simp] theorem takeRequest_params (w : Word) (rest : List Word) (s : State) : (takeRequest w rest s).params = s.params := rfl
@[simp] theorem takeRequest_pins (w : Word) (rest : List Word) (s : State) : (takeRequest w rest s).pins = s.pins := rfl
@[simp] theorem takeRequest_requests (w : Word) (rest : List Word) (s : State) : (takeRequest w rest s).requests = rest := rfl
@[simp] theorem takeRequest_resets (w : Word) (rest : List Word) (s : State) : (takeRequest w rest s).resets = s.resets := rfl
@[simp] theorem takeRequest_answers (w : Word) (rest : List Word) (s : State) : (takeRequest w rest s).answers = s.answers := rfl
@[simp] theorem takeRequest_free (w : Word) (rest : List Word) (s : State) : (takeRequest w rest s).free = s.free + 1 := rfl
@[simp] theorem takeRequest_now (w : Word) (rest : List Word) (s : State) : (takeRequest w rest s).now = nextStart s := rfl
@[simp] theorem takeRequest_log (w : Word) (rest : List Word) (s : State) : (takeRequest w rest s).log = s.log ++ [⟨.req w, nextStart s, nextStart s⟩] := rfl
@[simp] theorem takeRequest_latches (w : Word) (rest : List Word) (s : State) : (takeRequest w rest s).latches = s.latches := rfl
@[simp] theorem takeRequest_events (w : Word) (rest : List Word) (s : State) :
    (takeRequest w rest s).events = s.events ++ [.req w] := by
  simp [State.events, takeRequest_log]

/-! ### `recordWrite` -/

@[simp] theorem recordWrite_bl (b : Byte) (e : WriteEnd) (s : State) : (recordWrite b e s).bl = s.bl := rfl
@[simp] theorem recordWrite_initState (b : Byte) (e : WriteEnd) (s : State) : (recordWrite b e s).initState = s.initState := rfl
@[simp] theorem recordWrite_initErr (b : Byte) (e : WriteEnd) (s : State) : (recordWrite b e s).initErr = s.initErr := rfl
@[simp] theorem recordWrite_text (b : Byte) (e : WriteEnd) (s : State) : (recordWrite b e s).text = s.text := rfl
@[simp] theorem recordWrite_seq (b : Byte) (e : WriteEnd) (s : State) : (recordWrite b e s).seq = s.seq := rfl
@[simp] theorem recordWrite_timer (b : Byte) (e : WriteEnd) (s : State) : (recordWrite b e s).timer = s.timer := rfl
@[simp] theorem recordWrite_params (b : Byte) (e : WriteEnd) (s : State) : (recordWrite b e s).params = s.params := rfl
@[simp] theorem recordWrite_pins (b : Byte) (e : WriteEnd) (s : State) : (recordWrite b e s).pins = s.pins := rfl
@[simp] theorem recordWrite_requests (b : Byte) (e : WriteEnd) (s : State) : (recordWrite b e s).requests = s.requests := rfl
@[simp] theorem recordWrite_resets (b : Byte) (e : WriteEnd) (s : State) : (recordWrite b e s).resets = s.resets := rfl
@[simp] theorem recordWrite_answers (b : Byte) (e : WriteEnd) (s : State) : (recordWrite b e s).answers = s.answers.tail := rfl
@[simp] theorem recordWrite_free (b : Byte) (e : WriteEnd) (s : State) : (recordWrite b e s).free = s.free + 1 := rfl
@[simp] theorem recordWrite_now (b : Byte) (e : WriteEnd) (s : State) : (recordWrite b e s).now = nextStart s + Config.writeUs s.free := rfl
@[simp] theorem recordWrite_log (b : Byte) (e : WriteEnd) (s : State) : (recordWrite b e s).log = s.log ++ [⟨.write s.params.slaveAddr b e, nextStart s, nextStart s + Config.writeUs s.free⟩] := rfl
@[simp] theorem recordWrite_latches (b : Byte) (e : WriteEnd) (s : State) : (recordWrite b e s).latches = s.latches := rfl
@[simp] theorem recordWrite_events (b : Byte) (e : WriteEnd) (s : State) :
    (recordWrite b e s).events = s.events ++ [.write s.params.slaveAddr b e] := by
  simp [State.events, recordWrite_log]

/-! ### `recordOpenWrite` -/

@[simp] theorem recordOpenWrite_bl (b : Byte) (e : WriteEnd) (s : State) : (recordOpenWrite b e s).bl = s.bl := rfl
@[simp] theorem recordOpenWrite_initState (b : Byte) (e : WriteEnd) (s : State) : (recordOpenWrite b e s).initState = s.initState := rfl
@[simp] theorem recordOpenWrite_initErr (b : Byte) (e : WriteEnd) (s : State) : (recordOpenWrite b e s).initErr = s.initErr := rfl
@[simp] theorem recordOpenWrite_text (b : Byte) (e : WriteEnd) (s : State) : (recordOpenWrite b e s).text = s.text := rfl
@[simp] theorem recordOpenWrite_seq (b : Byte) (e : WriteEnd) (s : State) : (recordOpenWrite b e s).seq = s.seq := rfl
@[simp] theorem recordOpenWrite_timer (b : Byte) (e : WriteEnd) (s : State) : (recordOpenWrite b e s).timer = s.timer := rfl
@[simp] theorem recordOpenWrite_params (b : Byte) (e : WriteEnd) (s : State) : (recordOpenWrite b e s).params = s.params := rfl
@[simp] theorem recordOpenWrite_pins (b : Byte) (e : WriteEnd) (s : State) : (recordOpenWrite b e s).pins = s.pins := rfl
@[simp] theorem recordOpenWrite_requests (b : Byte) (e : WriteEnd) (s : State) : (recordOpenWrite b e s).requests = s.requests := rfl
@[simp] theorem recordOpenWrite_resets (b : Byte) (e : WriteEnd) (s : State) : (recordOpenWrite b e s).resets = s.resets := rfl
@[simp] theorem recordOpenWrite_answers (b : Byte) (e : WriteEnd) (s : State) : (recordOpenWrite b e s).answers = s.answers.tail := rfl
@[simp] theorem recordOpenWrite_free (b : Byte) (e : WriteEnd) (s : State) : (recordOpenWrite b e s).free = s.free + 1 := rfl
@[simp] theorem recordOpenWrite_now (b : Byte) (e : WriteEnd) (s : State) : (recordOpenWrite b e s).now = nextStart s := rfl
@[simp] theorem recordOpenWrite_log (b : Byte) (e : WriteEnd) (s : State) : (recordOpenWrite b e s).log = s.log ++ [⟨.write s.params.slaveAddr b e, nextStart s, nextStart s⟩] := rfl
@[simp] theorem recordOpenWrite_latches (b : Byte) (e : WriteEnd) (s : State) : (recordOpenWrite b e s).latches = s.latches := rfl
@[simp] theorem recordOpenWrite_events (b : Byte) (e : WriteEnd) (s : State) :
    (recordOpenWrite b e s).events = s.events ++ [.write s.params.slaveAddr b e] := by
  simp [State.events, recordOpenWrite_log]

/-! ### `landed` -/

@[simp] theorem landed_bl (b : Byte) (s : State) : (landed b s).bl = s.bl := rfl
@[simp] theorem landed_initState (b : Byte) (s : State) : (landed b s).initState = s.initState := rfl
@[simp] theorem landed_initErr (b : Byte) (s : State) : (landed b s).initErr = s.initErr := rfl
@[simp] theorem landed_text (b : Byte) (s : State) : (landed b s).text = s.text := rfl
@[simp] theorem landed_seq (b : Byte) (s : State) : (landed b s).seq = s.seq := rfl
@[simp] theorem landed_timer (b : Byte) (s : State) : (landed b s).timer = s.timer := rfl
@[simp] theorem landed_params (b : Byte) (s : State) : (landed b s).params = s.params := rfl
@[simp] theorem landed_pins (b : Byte) (s : State) : (landed b s).pins = b := rfl
@[simp] theorem landed_requests (b : Byte) (s : State) : (landed b s).requests = s.requests := rfl
@[simp] theorem landed_resets (b : Byte) (s : State) : (landed b s).resets = s.resets := rfl
@[simp] theorem landed_answers (b : Byte) (s : State) : (landed b s).answers = s.answers.tail := rfl
@[simp] theorem landed_free (b : Byte) (s : State) : (landed b s).free = s.free + 1 := rfl
@[simp] theorem landed_now (b : Byte) (s : State) : (landed b s).now = nextStart s + Config.writeUs s.free := rfl
@[simp] theorem landed_log (b : Byte) (s : State) : (landed b s).log = s.log ++ [⟨.write s.params.slaveAddr b .ok, nextStart s, nextStart s + Config.writeUs s.free⟩] := rfl
@[simp] theorem landed_latches (b : Byte) (s : State) : (landed b s).latches = s.latches ++ (latchOf s.pins b).toList := rfl
@[simp] theorem landed_events (b : Byte) (s : State) :
    (landed b s).events = s.events ++ [.write s.params.slaveAddr b .ok] := by
  simp [State.events, landed_log]

/-! ### `waited` -/

@[simp] theorem waited_bl (d : Nat) (s : State) : (waited d s).bl = s.bl := rfl
@[simp] theorem waited_initState (d : Nat) (s : State) : (waited d s).initState = s.initState := rfl
@[simp] theorem waited_initErr (d : Nat) (s : State) : (waited d s).initErr = s.initErr := rfl
@[simp] theorem waited_text (d : Nat) (s : State) : (waited d s).text = s.text := rfl
@[simp] theorem waited_seq (d : Nat) (s : State) : (waited d s).seq = s.seq := rfl
@[simp] theorem waited_timer (d : Nat) (s : State) : (waited d s).timer = none := rfl
@[simp] theorem waited_params (d : Nat) (s : State) : (waited d s).params = s.params := rfl
@[simp] theorem waited_pins (d : Nat) (s : State) : (waited d s).pins = s.pins := rfl
@[simp] theorem waited_requests (d : Nat) (s : State) : (waited d s).requests = s.requests := rfl
@[simp] theorem waited_resets (d : Nat) (s : State) : (waited d s).resets = s.resets := rfl
@[simp] theorem waited_answers (d : Nat) (s : State) : (waited d s).answers = s.answers := rfl
@[simp] theorem waited_free (d : Nat) (s : State) : (waited d s).free = s.free + 1 := rfl
@[simp] theorem waited_now (d : Nat) (s : State) : (waited d s).now = s.now + d + Config.excessUs s.free := rfl
@[simp] theorem waited_log (d : Nat) (s : State) : (waited d s).log = s.log ++ [⟨.delay d, s.now, s.now + d + Config.excessUs s.free⟩] := rfl
@[simp] theorem waited_latches (d : Nat) (s : State) : (waited d s).latches = s.latches := rfl
@[simp] theorem waited_events (d : Nat) (s : State) :
    (waited d s).events = s.events ++ [.delay d] := by
  simp [State.events, waited_log]

/-! ### `setBacklight` -/

@[simp] theorem setBacklight_bl (b : Bool) (s : State) : (setBacklight b s).bl = b := rfl
@[simp] theorem setBacklight_initState (b : Bool) (s : State) : (setBacklight b s).initState = s.initState := rfl
@[simp] theorem setBacklight_initErr (b : Bool) (s : State) : (setBacklight b s).initErr = s.initErr := rfl
@[simp] theorem setBacklight_text (b : Bool) (s : State) : (setBacklight b s).text = s.text := rfl
@[simp] theorem setBacklight_seq (b : Bool) (s : State) : (setBacklight b s).seq = s.seq := rfl
@[simp] theorem setBacklight_timer (b : Bool) (s : State) : (setBacklight b s).timer = s.timer := rfl
@[simp] theorem setBacklight_params (b : Bool) (s : State) : (setBacklight b s).params = s.params := rfl
@[simp] theorem setBacklight_pins (b : Bool) (s : State) : (setBacklight b s).pins = s.pins := rfl
@[simp] theorem setBacklight_requests (b : Bool) (s : State) : (setBacklight b s).requests = s.requests := rfl
@[simp] theorem setBacklight_resets (b : Bool) (s : State) : (setBacklight b s).resets = s.resets := rfl
@[simp] theorem setBacklight_answers (b : Bool) (s : State) : (setBacklight b s).answers = s.answers := rfl
@[simp] theorem setBacklight_free (b : Bool) (s : State) : (setBacklight b s).free = s.free := rfl
@[simp] theorem setBacklight_now (b : Bool) (s : State) : (setBacklight b s).now = s.now := rfl
@[simp] theorem setBacklight_log (b : Bool) (s : State) : (setBacklight b s).log = s.log := rfl
@[simp] theorem setBacklight_latches (b : Bool) (s : State) : (setBacklight b s).latches = s.latches := rfl
@[simp] theorem setBacklight_events (b : Bool) (s : State) : (setBacklight b s).events = s.events := rfl

/-! ### `beginInit` -/

@[simp] theorem beginInit_bl (s : State) : (beginInit s).bl = s.bl := rfl
@[simp] theorem beginInit_initState (s : State) : (beginInit s).initState = 0 := rfl
@[simp] theorem beginInit_initErr (s : State) : (beginInit s).initErr = false := rfl
@[simp] theorem beginInit_text (s : State) : (beginInit s).text = s.text := rfl
@[simp] theorem beginInit_seq (s : State) : (beginInit s).seq = s.seq := rfl
@[simp] theorem beginInit_timer (s : State) : (beginInit s).timer = s.timer := rfl
@[simp] theorem beginInit_params (s : State) : (beginInit s).params = s.params := rfl
@[simp] theorem beginInit_pins (s : State) : (beginInit s).pins = s.pins := rfl
@[simp] theorem beginInit_requests (s : State) : (beginInit s).requests = s.requests := rfl
@[simp] theorem beginInit_resets (s : State) : (beginInit s).resets = s.resets := rfl
@[simp] theorem beginInit_answers (s : State) : (beginInit s).answers = s.answers := rfl
@[simp] theorem beginInit_free (s : State) : (beginInit s).free = s.free := rfl
@[simp] theorem beginInit_now (s : State) : (beginInit s).now = s.now := rfl
@[simp] theorem beginInit_log (s : State) : (beginInit s).log = s.log := rfl
@[simp] theorem beginInit_latches (s : State) : (beginInit s).latches = s.latches := rfl
@[simp] theorem beginInit_events (s : State) : (beginInit s).events = s.events := rfl

/-! ### `enterInit` -/

@[simp] theorem enterInit_bl (k : BitVec 4) (s : State) : (enterInit k s).bl = s.bl := rfl
@[simp] theorem enterInit_initState (k : BitVec 4) (s : State) : (enterInit k s).initState = k := rfl
@[simp] theorem enterInit_initErr (k : BitVec 4) (s : State) : (enterInit k s).initErr = s.initErr := rfl
@[simp] theorem enterInit_text (k : BitVec 4) (s : State) : (enterInit k s).text = s.text := rfl
@[simp] theorem enterInit_seq (k : BitVec 4) (s : State) : (enterInit k s).seq = s.seq := rfl
@[simp] theorem enterInit_timer (k : BitVec 4) (s : State) : (enterInit k s).timer = s.timer := rfl
@[simp] theorem enterInit_params (k : BitVec 4) (s : State) : (enterInit k s).params = s.params := rfl
@[simp] theorem enterInit_pins (k : BitVec 4) (s : State) : (enterInit k s).pins = s.pins := rfl
@[simp] theorem enterInit_requests (k : BitVec 4) (s : State) : (enterInit k s).requests = s.requests := rfl
@[simp] theorem enterInit_resets (k : BitVec 4) (s : State) : (enterInit k s).resets = s.resets := rfl
@[simp] theorem enterInit_answers (k : BitVec 4) (s : State) : (enterInit k s).answers = s.answers := rfl
@[simp] theorem enterInit_free (k : BitVec 4) (s : State) : (enterInit k s).free = s.free := rfl
@[simp] theorem enterInit_now (k : BitVec 4) (s : State) : (enterInit k s).now = s.now := rfl
@[simp] theorem enterInit_log (k : BitVec 4) (s : State) : (enterInit k s).log = s.log := rfl
@[simp] theorem enterInit_latches (k : BitVec 4) (s : State) : (enterInit k s).latches = s.latches := rfl
@[simp] theorem enterInit_events (k : BitVec 4) (s : State) : (enterInit k s).events = s.events := rfl

/-! ### `abortInit` -/

@[simp] theorem abortInit_bl (s : State) : (abortInit s).bl = s.bl := rfl
@[simp] theorem abortInit_initState (s : State) : (abortInit s).initState = s.initState := rfl
@[simp] theorem abortInit_initErr (s : State) : (abortInit s).initErr = true := rfl
@[simp] theorem abortInit_text (s : State) : (abortInit s).text = s.text := rfl
@[simp] theorem abortInit_seq (s : State) : (abortInit s).seq = s.seq := rfl
@[simp] theorem abortInit_timer (s : State) : (abortInit s).timer = s.timer := rfl
@[simp] theorem abortInit_params (s : State) : (abortInit s).params = s.params := rfl
@[simp] theorem abortInit_pins (s : State) : (abortInit s).pins = s.pins := rfl
@[simp] theorem abortInit_requests (s : State) : (abortInit s).requests = s.requests := rfl
@[simp] theorem abortInit_resets (s : State) : (abortInit s).resets = s.resets := rfl
@[simp] theorem abortInit_answers (s : State) : (abortInit s).answers = s.answers := rfl
@[simp] theorem abortInit_free (s : State) : (abortInit s).free = s.free := rfl
@[simp] theorem abortInit_now (s : State) : (abortInit s).now = s.now := rfl
@[simp] theorem abortInit_log (s : State) : (abortInit s).log = s.log := rfl
@[simp] theorem abortInit_latches (s : State) : (abortInit s).latches = s.latches := rfl
@[simp] theorem abortInit_events (s : State) : (abortInit s).events = s.events := rfl

/-! ### `storeText` -/

@[simp] theorem storeText_bl (idx : BitVec 4) (byte : Byte) (s : State) : (storeText idx byte s).bl = s.bl := rfl
@[simp] theorem storeText_initState (idx : BitVec 4) (byte : Byte) (s : State) : (storeText idx byte s).initState = s.initState := rfl
@[simp] theorem storeText_initErr (idx : BitVec 4) (byte : Byte) (s : State) : (storeText idx byte s).initErr = s.initErr := rfl
@[simp] theorem storeText_text (idx : BitVec 4) (byte : Byte) (s : State) : (storeText idx byte s).text = Memory.write s.text idx.toNat byte := rfl
@[simp] theorem storeText_seq (idx : BitVec 4) (byte : Byte) (s : State) : (storeText idx byte s).seq = s.seq := rfl
@[simp] theorem storeText_timer (idx : BitVec 4) (byte : Byte) (s : State) : (storeText idx byte s).timer = s.timer := rfl
@[simp] theorem storeText_params (idx : BitVec 4) (byte : Byte) (s : State) : (storeText idx byte s).params = s.params := rfl
@[simp] theorem storeText_pins (idx : BitVec 4) (byte : Byte) (s : State) : (storeText idx byte s).pins = s.pins := rfl
@[simp] theorem storeText_requests (idx : BitVec 4) (byte : Byte) (s : State) : (storeText idx byte s).requests = s.requests := rfl
@[simp] theorem storeText_resets (idx : BitVec 4) (byte : Byte) (s : State) : (storeText idx byte s).resets = s.resets := rfl
@[simp] theorem storeText_answers (idx : BitVec 4) (byte : Byte) (s : State) : (storeText idx byte s).answers = s.answers := rfl
@[simp] theorem storeText_free (idx : BitVec 4) (byte : Byte) (s : State) : (storeText idx byte s).free = s.free := rfl
@[simp] theorem storeText_now (idx : BitVec 4) (byte : Byte) (s : State) : (storeText idx byte s).now = s.now := rfl
@[simp] theorem storeText_log (idx : BitVec 4) (byte : Byte) (s : State) : (storeText idx byte s).log = s.log := rfl
@[simp] theorem storeText_latches (idx : BitVec 4) (byte : Byte) (s : State) : (storeText idx byte s).latches = s.latches := rfl
@[simp] theorem storeText_events (idx : BitVec 4) (byte : Byte) (s : State) : (storeText idx byte s).events = s.events := rfl

/-! ### `responded` -/

@[simp] theorem responded_bl (c : Code) (d : Byte) (s : State) : (responded c d s).bl = s.bl := rfl
@[simp] theorem responded_initState (c : Code) (d : Byte) (s : State) : (responded c d s).initState = s.initState := rfl
@[simp] theorem responded_initErr (c : Code) (d : Byte) (s : State) : (responded c d s).initErr = s.initErr := rfl
@[simp] theorem responded_text (c : Code) (d : Byte) (s : State) : (responded c d s).text = s.text := rfl
@[simp] theorem responded_seq (c : Code) (d : Byte) (s : State) : (responded c d s).seq = .idle := rfl
@[simp] theorem responded_timer (c : Code) (d : Byte) (s : State) : (responded c d s).timer = s.timer := rfl
@[simp] theorem responded_params (c : Code) (d : Byte) (s : State) : (responded c d s).params = s.params := rfl
@[simp] theorem responded_pins (c : Code) (d : Byte) (s : State) : (responded c d s).pins = s.pins := rfl
@[simp] theorem responded_requests (c : Code) (d : Byte) (s : State) : (responded c d s).requests = s.requests := rfl
@[simp] theorem responded_resets (c : Code) (d : Byte) (s : State) : (responded c d s).resets = s.resets := rfl
@[simp] theorem responded_answers (c : Code) (d : Byte) (s : State) : (responded c d s).answers = s.answers := rfl
@[simp] theorem responded_free (c : Code) (d : Byte) (s : State) : (responded c d s).free = s.free + 1 := rfl
@[simp] theorem responded_now (c : Code) (d : Byte) (s : State) : (responded c d s).now = nextStart s := rfl
@[simp] theorem responded_log (c : Code) (d : Byte) (s : State) : (responded c d s).log = s.log ++ [⟨.rsp (responseWord c d), nextStart s, nextStart s⟩] := rfl
@[simp] theorem responded_latches (c : Code) (d : Byte) (s : State) : (responded c d s).latches = s.latches := rfl
@[simp] theorem responded_events (c : Code) (d : Byte) (s : State) :
    (responded c d s).events = s.events ++ [.rsp (responseWord c d)] := by
  simp [State.events, responded_log]

end Sys2Proof.Machine
end

