-- ==== Sys2Proof/Laws/Ops.lean ====
section
/-! SUPPORT. What each shared operation can do, said once: the reset input's opportunities, the primitives of R10 on each
answer of the bus, and the helpers as one list of bytes written in order until one fails. -/

namespace Sys2Proof.Machine

/-! ### Flow -/

@[simp] theorem Flow.bind_go {α β : Type} (a : α) (s : State) (k : α → State → Flow β) :
    (Flow.go a s).bind k = k a s := rfl

@[simp] theorem Flow.bind_stop {α β : Type} (s : State) (k : α → State → Flow β) :
    (Flow.stop s : Flow α).bind k = .stop s := rfl

@[simp] theorem Flow.finish_go {α : Type} (a : α) (s : State) (k : α → State → State) :
    (Flow.go a s).finish k = k a s := rfl

@[simp] theorem Flow.finish_stop {α : Type} (s : State) (k : α → State → State) :
    (Flow.stop s : Flow α).finish k = s := rfl

theorem Flow.bind_assoc {α β γ : Type} (f : Flow α) (k : α → State → Flow β) (l : β → State → Flow γ) :
    (f.bind k).bind l = f.bind fun a s => (k a s).bind l := by
  cases f <;> rfl

theorem Flow.finish_bind {α β : Type} (f : Flow α) (k : α → State → Flow β) (l : β → State → State) :
    (f.bind k).finish l = f.finish fun a s => (k a s).finish l := by
  cases f <;> rfl

/-! ### The reset input -/

/-- With no reset asserted, an opportunity for one changes nothing. -/
theorem resetTaken_none {s : State} (h : s.resets = []) : resetTaken s = (false, s) := by
  simp [resetTaken, h]

/-- Everything an opportunity for the reset input can do: it changes the input alone, and uses up an assertion exactly
when it takes effect. -/
theorem resetTaken_cases (s : State) :
    (∃ rs, rs.length = s.resets.length ∧ resetTaken s = (false, { s with resets := rs })) ∨
    (∃ rs, rs.length + 1 = s.resets.length ∧ resetTaken s = (true, { s with resets := rs })) := by
  unfold resetTaken
  split
  · exact .inl ⟨s.resets, rfl, rfl⟩
  · exact .inr ⟨_, by simp [*], rfl⟩
  · exact .inl ⟨_, by simp [*], rfl⟩

@[simp] theorem setResets_events (s : State) (rs : List Nat) : ({ s with resets := rs } : State).events = s.events := rfl

/-! ### The primitives, on each answer of the bus -/

theorem transportWrite_ok {b : Byte} {s : State} (hr : s.resets = []) (ha : answer s = .ok) :
    transportWrite b s = .go true (landed b s) := by
  simp [transportWrite, resetTaken_none hr, ha]

theorem transportWrite_fail {b : Byte} {s : State} (hr : s.resets = []) (ha : answer s = .fail) :
    transportWrite b s = .go false (disturb (recordWrite b .fail s)) := by
  simp [transportWrite, resetTaken_none hr, ha]

theorem transportWrite_never {b : Byte} {s : State} (hr : s.resets = []) (ha : answer s = .never) :
    transportWrite b s = .stop (disturb (recordOpenWrite b .unanswered s)) := by
  simp [transportWrite, resetTaken_none hr, ha]

theorem delay_zero (s : State) : delay 0 s = .go () s := rfl

theorem delay_quiet {t : Nat} {s : State} (ht : t ≠ 0) (hr : s.resets = []) : delay t s = .go () (waited t s) := by
  have h : resetTaken { s with timer := some t } = (false, { s with timer := some t }) :=
    resetTaken_none (s := { s with timer := some t }) hr
  simp [delay, ht, h, waited]

theorem respond_quiet {c : Code} {d : Byte} {s : State} (hr : s.resets = []) :
    respond c d s = responded c d s := by
  simp [respond, resetTaken_none hr]

/-- Everything a transport write can do: the bus answers `ok` or `fail`, or it never answers, or the reset input takes
effect before the write or during it. -/
theorem transportWrite_cases (b : Byte) (s : State) :
    (∃ rs, rs.length = s.resets.length ∧
      (transportWrite b s = .go true (landed b { s with resets := rs }) ∨
       transportWrite b s = .go false (disturb (recordWrite b .fail { s with resets := rs })) ∨
       transportWrite b s = .stop (disturb (recordOpenWrite b .unanswered { s with resets := rs })))) ∨
    (∃ rs, rs.length + 1 = s.resets.length ∧
      (transportWrite b s = .stop (takeReset { s with resets := rs }) ∨
       transportWrite b s = .stop (takeReset (disturb (recordOpenWrite b .cut { s with resets := rs }))))) := by
  obtain ⟨rs, hl, h⟩ | ⟨rs, hl, h⟩ := resetTaken_cases s
  · obtain ⟨rs', hl', h'⟩ | ⟨rs', hl', h'⟩ := resetTaken_cases { s with resets := rs }
    · refine .inl ⟨rs', hl'.trans hl, ?_⟩
      cases ha : answer { s with resets := rs' } with
      | ok => exact .inl (by simp [transportWrite, h, h', ha])
      | fail => exact .inr (.inl (by simp [transportWrite, h, h', ha]))
      | never => exact .inr (.inr (by simp [transportWrite, h, h', ha]))
    · exact .inr ⟨rs', hl'.trans hl, .inr (by simp [transportWrite, h, h'])⟩
  · exact .inr ⟨rs, hl, .inl (by simp [transportWrite, h])⟩

/-- Everything a delay can do: nothing when it is 0, else the wait, or the reset input taking effect during it. -/
theorem delay_cases (t : Nat) (s : State) :
    (t = 0 ∧ delay t s = .go () s) ∨
    (t ≠ 0 ∧ ∃ rs, rs.length = s.resets.length ∧ delay t s = .go () (waited t { s with resets := rs })) ∨
    (t ≠ 0 ∧ ∃ rs, rs.length + 1 = s.resets.length ∧ delay t s = .stop (takeReset { s with resets := rs })) := by
  by_cases ht : t = 0
  · exact .inl ⟨ht, by simp [delay, ht]⟩
  · obtain ⟨rs, hl, h⟩ | ⟨rs, hl, h⟩ := resetTaken_cases { s with timer := some t }
    · exact .inr (.inl ⟨ht, rs, hl, by simp [delay, ht, h, waited]⟩)
    · exact .inr (.inr ⟨ht, rs, hl, by simp [delay, ht, h, takeReset]⟩)

/-- Everything a response can do: it is given, or the reset input takes effect before it. -/
theorem respond_cases (c : Code) (d : Byte) (s : State) :
    (∃ rs, rs.length = s.resets.length ∧ respond c d s = responded c d { s with resets := rs }) ∨
    (∃ rs, rs.length + 1 = s.resets.length ∧ respond c d s = takeReset { s with resets := rs }) := by
  obtain ⟨rs, hl, h⟩ | ⟨rs, hl, h⟩ := resetTaken_cases s
  · exact .inl ⟨rs, hl, by simp [respond, h]⟩
  · exact .inr ⟨rs, hl, by simp [respond, h]⟩

/-! ### Lists of writes -/

/-- Write these bytes in order, until one is not answered `ok`. -/
def writeAll : List Byte → State → Flow Bool
  | [], s => .go true s
  | b :: bs, s => (transportWrite b s).bind fun r s => if r then writeAll bs s else .go false s

/-- The state after these bytes were written and each was answered `ok`. -/
def landedAll : List Byte → State → State
  | [], s => s
  | b :: bs, s => landedAll bs (landed b s)

theorem writeAll_append (as bs : List Byte) (s : State) :
    writeAll (as ++ bs) s = (writeAll as s).bind fun r s => if r then writeAll bs s else .go false s := by
  induction as generalizing s with
  | nil => simp [writeAll]
  | cons a as ih =>
    simp only [List.cons_append, writeAll, Flow.bind_assoc]
    congr 1
    funext r s
    cases r <;> simp [ih]

/-- Every write leaves the backlight flag alone when the request goes on. -/
theorem transportWrite_bl {b : Byte} {s t : State} {r : Bool} (h : transportWrite b s = .go r t) : t.bl = s.bl := by
  obtain ⟨rs, _, h' | h' | h'⟩ | ⟨rs, _, h' | h'⟩ := transportWrite_cases b s <;> rw [h'] at h <;> cases h <;> rfl

theorem writeAll_bl (bs : List Byte) {s t : State} {r : Bool} (h : writeAll bs s = .go r t) : t.bl = s.bl := by
  induction bs generalizing s with
  | nil => simp only [writeAll, Flow.go.injEq] at h; rw [h.2]
  | cons b bs ih =>
    simp only [writeAll] at h
    cases hw : transportWrite b s with
    | stop u => simp [hw] at h
    | go r' u =>
      have hu := transportWrite_bl hw
      cases r' with
      | true => simp only [hw, Flow.bind_go, if_true] at h; rw [ih h, hu]
      | false =>
        simp only [hw, Flow.bind_go, Bool.false_eq_true, if_false, Flow.go.injEq] at h
        rw [← h.2, hu]

theorem writeAll_singleton (b : Byte) (s : State) : writeAll [b] s = transportWrite b s := by
  simp only [writeAll]
  cases transportWrite b s with
  | stop u => rfl
  | go r u => cases r <;> rfl

/-- A strobe writes three bytes (R104). -/
theorem strobe_eq_writeAll (c : Byte) (s : State) :
    strobe c s = writeAll [(c ||| enBit) ||| blBit s.bl, (c ||| blBit s.bl) &&& ~~~enBit, (c ||| enBit) ||| blBit s.bl] s := by
  simp only [strobe, writeAll]
  congr 1
  funext r s'
  cases r with
  | false => rfl
  | true =>
    simp only [if_true]
    congr 1
    funext r s''
    cases r with
    | false => rfl
    | true => exact (writeAll_singleton _ _).symm

end Sys2Proof.Machine

namespace Sys2Proof.Safety

open Sys2Proof.Machine

/-! ### The frames of R120 and R122 give the bytes of R82 -/

theorem strobe_bytes_hi (bl : Bool) (rs : Line) (v : Byte) :
    [(frameHi rs 0 v ||| enBit) ||| blBit bl, (frameHi rs 0 v ||| blBit bl) &&& ~~~enBit,
      (frameHi rs 0 v ||| enBit) ||| blBit bl] = strobeBytes bl rs (v.extractLsb' 4 4) := by
  revert bl rs v; decide

theorem strobe_bytes_lo (bl : Bool) (rs : Line) (v : Byte) :
    [(frameLo rs 0 v ||| enBit) ||| blBit bl, (frameLo rs 0 v ||| blBit bl) &&& ~~~enBit,
      (frameLo rs 0 v ||| enBit) ||| blBit bl] = strobeBytes bl rs (v.extractLsb' 0 4) := by
  revert bl rs v; decide

theorem strobe_bytes_forced (bl : Bool) (n : Nibble) :
    [(frameForced n ||| enBit) ||| blBit bl, (frameForced n ||| blBit bl) &&& ~~~enBit,
      (frameForced n ||| enBit) ||| blBit bl] = strobeBytes bl 0 n := by
  revert bl n; decide

theorem apply_byte (bl : Bool) : blBit bl ||| enBit = pinByte 0 bl true 0 := by
  revert bl; decide

theorem strobe_hi (rs : Line) (v : Byte) (s : State) :
    strobe (frameHi rs 0 v) s = writeAll (strobeBytes s.bl rs (v.extractLsb' 4 4)) s := by
  rw [strobe_eq_writeAll, strobe_bytes_hi]

theorem strobe_lo (rs : Line) (v : Byte) (s : State) :
    strobe (frameLo rs 0 v) s = writeAll (strobeBytes s.bl rs (v.extractLsb' 0 4)) s := by
  rw [strobe_eq_writeAll, strobe_bytes_lo]

/-- A forced nibble writes the strobe of the nibble with RS = 0 (R122). -/
theorem send4f_eq_writeAll (n : Nibble) (s : State) : send4f n s = writeAll (strobeBytes s.bl 0 n) s := by
  rw [send4f, strobe_eq_writeAll, strobe_bytes_forced]

/-- A byte transfer writes six bytes, until one fails (R121). -/
theorem send8_eq_writeAll (rs : Line) (v : Byte) (s : State) : send8 rs 0 v s = writeAll (transferBytes s.bl rs v) s := by
  rw [send8, strobe_hi, transferBytes, writeAll_append]
  cases h : writeAll (strobeBytes s.bl rs (v.extractLsb' 4 4)) s with
  | stop u => rfl
  | go r u =>
    cases r with
    | false => rfl
    | true => simp only [Flow.bind_go, if_true, strobe_lo, writeAll_bl _ h]

/-- The re-apply write is one byte (R150, R151). -/
theorem applyBacklight_eq_writeAll (s : State) : applyBacklight s = writeAll [pinByte 0 s.bl true 0] s := by
  rw [writeAll_singleton, applyBacklight, apply_byte]

end Sys2Proof.Safety
end

