-- ==== Sys2Proof/Laws/Writes.lean ====
section
/-! SUPPORT. Lists of writes in an environment that asserts no reset: every byte answered `ok`, or the first `k` of them
and then something else; the fields of the state afterwards; and the latches a strobe makes. -/

namespace Sys2Proof.Machine

/-! ### The fields after writes that landed -/

theorem landedAll_append (as bs : List Byte) (s : State) :
    landedAll (as ++ bs) s = landedAll bs (landedAll as s) := by
  induction as generalizing s with
  | nil => rfl
  | cons a as ih => exact ih _

@[simp] theorem landedAll_bl (bs : List Byte) (s : State) : (landedAll bs s).bl = s.bl := by
  induction bs generalizing s with
  | nil => rfl
  | cons b bs ih => exact (ih _).trans rfl

@[simp] theorem landedAll_initState (bs : List Byte) (s : State) : (landedAll bs s).initState = s.initState := by
  induction bs generalizing s with
  | nil => rfl
  | cons b bs ih => exact (ih _).trans rfl

@[simp] theorem landedAll_initErr (bs : List Byte) (s : State) : (landedAll bs s).initErr = s.initErr := by
  induction bs generalizing s with
  | nil => rfl
  | cons b bs ih => exact (ih _).trans rfl

@[simp] theorem landedAll_text (bs : List Byte) (s : State) : (landedAll bs s).text = s.text := by
  induction bs generalizing s with
  | nil => rfl
  | cons b bs ih => exact (ih _).trans rfl

@[simp] theorem landedAll_seq (bs : List Byte) (s : State) : (landedAll bs s).seq = s.seq := by
  induction bs generalizing s with
  | nil => rfl
  | cons b bs ih => exact (ih _).trans rfl

@[simp] theorem landedAll_timer (bs : List Byte) (s : State) : (landedAll bs s).timer = s.timer := by
  induction bs generalizing s with
  | nil => rfl
  | cons b bs ih => exact (ih _).trans rfl

@[simp] theorem landedAll_params (bs : List Byte) (s : State) : (landedAll bs s).params = s.params := by
  induction bs generalizing s with
  | nil => rfl
  | cons b bs ih => exact (ih _).trans rfl

@[simp] theorem landedAll_requests (bs : List Byte) (s : State) : (landedAll bs s).requests = s.requests := by
  induction bs generalizing s with
  | nil => rfl
  | cons b bs ih => exact (ih _).trans rfl

@[simp] theorem landedAll_resets (bs : List Byte) (s : State) : (landedAll bs s).resets = s.resets := by
  induction bs generalizing s with
  | nil => rfl
  | cons b bs ih => exact (ih _).trans rfl

@[simp] theorem landedAll_answers (bs : List Byte) (s : State) :
    (landedAll bs s).answers = s.answers.drop bs.length := by
  induction bs generalizing s with
  | nil => rfl
  | cons b bs ih => simp [landedAll, ih]

@[simp] theorem landedAll_events (bs : List Byte) (s : State) :
    (landedAll bs s).events = s.events ++ Safety.okWrites s.params.slaveAddr bs := by
  induction bs generalizing s with
  | nil => simp [landedAll, Safety.okWrites]
  | cons b bs ih => simp [landedAll, ih, Safety.okWrites]

/-- The pins after writes that landed are the last byte written. -/
theorem landedAll_pins (bs : List Byte) (s : State) : (landedAll bs s).pins = bs.getLastD s.pins := by
  induction bs generalizing s with
  | nil => rfl
  | cons b bs ih => exact (ih _).trans (List.getLastD_cons ..).symm

end Sys2Proof.Machine

namespace Sys2Proof.Safety

open Sys2Proof.Machine

/-! ### Environments -/

/-- The list form of an answer that comes after `k` answers `ok`. -/
theorem answers_ok_cons {k : Nat} {l : List BusAnswer} {as : List BusAnswer}
    (h : as.take (k + 1 + l.length) = List.replicate (k + 1) .ok ++ l) :
    ∃ rest, as = .ok :: rest ∧ rest.take (k + l.length) = List.replicate k .ok ++ l := by
  cases as with
  | nil => simp [List.replicate_succ] at h
  | cons a rest =>
    rw [show k + 1 + l.length = k + l.length + 1 by omega, List.take_succ_cons, List.replicate_succ,
      List.cons_append, List.cons.injEq] at h
    exact ⟨rest, by rw [h.1], h.2⟩

/-- The first of several answers is `ok`, and the rest still are after the write. -/
theorem AllOk.next {n : Nat} {s : State} (h : AllOk (n + 1) s) : answer s = .ok ∧ ∀ b, AllOk n (landed b s) := by
  obtain ⟨hr, ha⟩ := h
  obtain ⟨rest, hs, hrest⟩ := answers_ok_cons (k := n) (l := []) (as := s.answers) (by simpa using ha)
  refine ⟨by simp [answer, hs], fun b => ⟨hr, ?_⟩⟩
  simpa [hs] using hrest

theorem AnsweredAt.here {a : BusAnswer} {s : State} (h : AnsweredAt 0 a s) : answer s = a := by
  obtain ⟨_, ha⟩ := h
  cases hs : s.answers with
  | nil => simp [hs] at ha
  | cons x rest => simpa [answer, hs] using ha

theorem AnsweredAt.next {k : Nat} {a : BusAnswer} {s : State} (h : AnsweredAt (k + 1) a s) :
    answer s = .ok ∧ ∀ b, AnsweredAt k a (landed b s) := by
  obtain ⟨hr, ha⟩ := h
  obtain ⟨rest, hs, hrest⟩ := answers_ok_cons (k := k) (l := [a]) (as := s.answers) (by simpa using ha)
  refine ⟨by simp [answer, hs], fun b => ⟨hr, ?_⟩⟩
  simpa [hs] using hrest

/-- Fewer answers `ok` than promised are still promised. -/
theorem AllOk.mono {m n : Nat} {s : State} (h : AllOk n s) (hmn : m ≤ n) : AllOk m s := by
  refine ⟨h.1, ?_⟩
  have := congrArg (List.take m) h.2
  simpa [List.take_take, Nat.min_eq_left hmn, List.take_replicate] using this

/-- After some of the writes answered `ok`, the remaining promise holds. -/
theorem AllOk.after {n : Nat} (bs : List Byte) {s : State} (h : AllOk (bs.length + n) s) : AllOk n (landedAll bs s) := by
  induction bs generalizing s with
  | nil => simpa [landedAll] using h
  | cons b bs ih =>
    rw [List.length_cons, show bs.length + 1 + n = bs.length + n + 1 by omega] at h
    exact ih (h.next.2 b)

theorem AnsweredAt.after {k : Nat} {a : BusAnswer} (bs : List Byte) {s : State} (h : AnsweredAt (bs.length + k) a s) :
    AnsweredAt k a (landedAll bs s) := by
  induction bs generalizing s with
  | nil => simpa [landedAll] using h
  | cons b bs ih =>
    rw [List.length_cons, show bs.length + 1 + k = bs.length + k + 1 by omega] at h
    exact ih (h.next.2 b)

/-- An answer after `k` answers `ok` promises those `k`. -/
theorem AnsweredAt.allOk {k : Nat} {a : BusAnswer} {s : State} (h : AnsweredAt k a s) : AllOk k s := by
  refine ⟨h.1, ?_⟩
  have := congrArg (List.take k) h.2
  simpa [List.take_take] using this

/-! ### Lists of writes -/

/-- With every byte answered `ok`, all of them are written. -/
theorem writeAll_ok (bs : List Byte) {s : State} (h : AllOk bs.length s) : writeAll bs s = .go true (landedAll bs s) := by
  induction bs generalizing s with
  | nil => rfl
  | cons b bs ih =>
    simp only [List.length_cons] at h
    simp [writeAll, transportWrite_ok h.1 h.next.1, ih (h.next.2 b), landedAll]

/-- With byte number `k` answered `fail`, it is the last one written, and the result is false. -/
theorem writeAll_fail (bs : List Byte) {k : Nat} {b : Byte} {s : State} (hk : bs[k]? = some b)
    (h : AnsweredAt k .fail s) :
    writeAll bs s = .go false (disturb (recordWrite b .fail (landedAll (bs.take k) s))) := by
  induction bs generalizing s k with
  | nil => simp at hk
  | cons c bs ih =>
    cases k with
    | zero =>
      simp only [List.getElem?_cons_zero, Option.some.injEq] at hk
      subst hk
      simp [writeAll, transportWrite_fail h.1 h.here, landedAll]
    | succ k =>
      simp only [List.getElem?_cons_succ] at hk
      simp [writeAll, transportWrite_ok h.1 h.next.1, ih hk (h.next.2 c), landedAll]

/-- With byte number `k` never answered, it is the last one begun, and the request goes no further. -/
theorem writeAll_never (bs : List Byte) {k : Nat} {b : Byte} {s : State} (hk : bs[k]? = some b)
    (h : AnsweredAt k .never s) :
    writeAll bs s = .stop (disturb (recordOpenWrite b .unanswered (landedAll (bs.take k) s))) := by
  induction bs generalizing s k with
  | nil => simp at hk
  | cons c bs ih =>
    cases k with
    | zero =>
      simp only [List.getElem?_cons_zero, Option.some.injEq] at hk
      subst hk
      simp [writeAll, transportWrite_never h.1 h.here, landedAll]
    | succ k =>
      simp only [List.getElem?_cons_succ] at hk
      simp [writeAll, transportWrite_ok h.1 h.next.1, ih hk (h.next.2 c), landedAll]

/-- The events of writes up to byte number `k`, when there is such a byte. -/
theorem writesUpTo_eq {addr : BitVec 7} {bs : List Byte} {k : Nat} {b : Byte} (e : WriteEnd) (hk : bs[k]? = some b) :
    writesUpTo addr bs k e = okWrites addr (bs.take k) ++ [.write addr b e] := by
  obtain ⟨hlt, hb⟩ := List.getElem?_eq_some_iff.mp hk
  simp [writesUpTo, List.drop_eq_getElem_cons hlt, hb]

theorem okWrites_append (addr : BitVec 7) (as bs : List Byte) :
    okWrites addr (as ++ bs) = okWrites addr as ++ okWrites addr bs := List.map_append ..

/-- Writes up to one inside the bytes `bs`, after bytes `as` and before bytes `cs`. -/
theorem writesUpTo_middle (addr : BitVec 7) (as bs cs : List Byte) {k : Nat} (e : WriteEnd) (hk : k < bs.length) :
    writesUpTo addr (as ++ (bs ++ cs)) (as.length + k) e = okWrites addr as ++ writesUpTo addr bs k e := by
  have hb : bs[k]? = some bs[k] := List.getElem?_eq_getElem hk
  have hab : (as ++ (bs ++ cs))[as.length + k]? = some bs[k] := by
    rw [List.getElem?_append_right (Nat.le_add_right ..), Nat.add_sub_cancel_left, List.getElem?_append_left hk, hb]
  rw [writesUpTo_eq e hab, writesUpTo_eq e hb, List.take_length_add_append,
    List.take_append_of_le_length (Nat.le_of_lt hk), okWrites_append, List.append_assoc]

/-! ### The writes among the events of a request -/

@[simp] theorem filter_okWrites (addr : BitVec 7) (bs : List Byte) :
    (okWrites addr bs).filter isWrite = okWrites addr bs :=
  List.filter_eq_self.mpr fun e he => by
    obtain ⟨b, _, rfl⟩ := List.mem_map.mp he
    rfl

@[simp] theorem filter_writesUpTo (addr : BitVec 7) (bs : List Byte) (k : Nat) (e : WriteEnd) :
    (writesUpTo addr bs k e).filter isWrite = writesUpTo addr bs k e := by
  refine List.filter_eq_self.mpr fun x hx => ?_
  simp only [writesUpTo, okWrites, List.mem_append, List.mem_map] at hx
  obtain ⟨b, _, rfl⟩ | ⟨b, _, rfl⟩ := hx <;> rfl

@[simp] theorem filter_waitEvents (d : Nat) : (waitEvents d).filter isWrite = [] := by
  unfold waitEvents
  split <;> rfl

/-- The answers used up by writes up to byte number `k`. -/
theorem answers_after_write (bs : List Byte) {k : Nat} (hk : k < bs.length) (s : State) :
    (landedAll (bs.take k) s).answers.tail = s.answers.drop (k + 1) := by
  rw [landedAll_answers, List.length_take, Nat.min_eq_left (Nat.le_of_lt hk), List.tail_drop]

theorem AnsweredAt.byte {k n : Nat} {bs : List Byte} (hk : k < n) (hn : bs.length = n) : ∃ b, bs[k]? = some b :=
  ⟨bs[k], List.getElem?_eq_getElem (hn ▸ hk)⟩

/-! ### A delay with no reset asserted -/

/-- The state after `Delay(d)` when no reset is asserted. -/
def afterDelay (d : Nat) (s : State) : State := if d = 0 then s else waited d s

theorem delay_eq {d : Nat} {s : State} (h : s.resets = []) : delay d s = .go () (afterDelay d s) := by
  unfold afterDelay
  split
  · subst_vars; rfl
  · exact delay_quiet ‹_› h

@[simp] theorem afterDelay_events (d : Nat) (s : State) : (afterDelay d s).events = s.events ++ waitEvents d := by
  unfold afterDelay waitEvents
  split <;> simp

@[simp] theorem afterDelay_timer (d : Nat) (s : State) : (afterDelay d s).timer = if d = 0 then s.timer else none := by
  unfold afterDelay
  split <;> rfl

@[simp] theorem afterDelay_bl (d : Nat) (s : State) : (afterDelay d s).bl = s.bl := by
  unfold afterDelay; split <;> rfl
@[simp] theorem afterDelay_initState (d : Nat) (s : State) : (afterDelay d s).initState = s.initState := by
  unfold afterDelay; split <;> rfl
@[simp] theorem afterDelay_initErr (d : Nat) (s : State) : (afterDelay d s).initErr = s.initErr := by
  unfold afterDelay; split <;> rfl
@[simp] theorem afterDelay_text (d : Nat) (s : State) : (afterDelay d s).text = s.text := by
  unfold afterDelay; split <;> rfl
@[simp] theorem afterDelay_seq (d : Nat) (s : State) : (afterDelay d s).seq = s.seq := by
  unfold afterDelay; split <;> rfl
@[simp] theorem afterDelay_params (d : Nat) (s : State) : (afterDelay d s).params = s.params := by
  unfold afterDelay; split <;> rfl
@[simp] theorem afterDelay_pins (d : Nat) (s : State) : (afterDelay d s).pins = s.pins := by
  unfold afterDelay; split <;> rfl
@[simp] theorem afterDelay_requests (d : Nat) (s : State) : (afterDelay d s).requests = s.requests := by
  unfold afterDelay; split <;> rfl
@[simp] theorem afterDelay_resets (d : Nat) (s : State) : (afterDelay d s).resets = s.resets := by
  unfold afterDelay; split <;> rfl
@[simp] theorem afterDelay_answers (d : Nat) (s : State) : (afterDelay d s).answers = s.answers := by
  unfold afterDelay; split <;> rfl
@[simp] theorem afterDelay_latches (d : Nat) (s : State) : (afterDelay d s).latches = s.latches := by
  unfold afterDelay; split <;> rfl

/-! ### Bytes, pins and latches of a strobe -/

@[simp] theorem strobeBytes_length (bl : Bool) (rs : Line) (n : Nibble) : (strobeBytes bl rs n).length = 3 := rfl

@[simp] theorem transferBytes_length (bl : Bool) (rs : Line) (v : Byte) : (transferBytes bl rs v).length = 6 := rfl

theorem latchOf_enabled (p : Byte) (bl : Bool) (rs : Line) (n : Nibble) : latchOf p (pinByte n bl true rs) = none := by
  have h : (pinByte n bl true rs).getLsbD 2 = true := by revert bl rs n; decide
  unfold latchOf
  rw [h]
  simp

theorem latchOf_falling (bl : Bool) (rs : Line) (n : Nibble) :
    latchOf (pinByte n bl true rs) (pinByte n bl false rs) = some ⟨rs, 0, n⟩ := by
  revert bl rs n; decide

/-- A strobe whose writes land makes exactly one latch, at its second write (R108). -/
@[simp] theorem landedAll_strobe_latches (bl : Bool) (rs : Line) (n : Nibble) (s : State) :
    (landedAll (strobeBytes bl rs n) s).latches = s.latches ++ [⟨rs, 0, n⟩] := by
  simp [strobeBytes, landedAll, latchOf_enabled, latchOf_falling]

/-- A byte transfer whose writes land makes its two latches, high nibble first (R109). -/
@[simp] theorem landedAll_transfer_latches (bl : Bool) (rs : Line) (v : Byte) (s : State) :
    (landedAll (transferBytes bl rs v) s).latches = s.latches ++ transferLatches rs v := by
  simp [transferBytes, transferLatches, landedAll_append]

/-- After a byte transfer whose writes land, the pins are the low nibble's strobe byte with enable set (R110). -/
theorem landedAll_transfer_pins (bl : Bool) (rs : Line) (v : Byte) (s : State) :
    (landedAll (transferBytes bl rs v) s).pins = pinByte (v.extractLsb' 0 4) bl true rs := by
  rw [landedAll_pins]; rfl

end Sys2Proof.Safety
end

