-- ==== Sys2Proof/Laws/Requests.lean ====
section
/-! SUPPORT. What a whole request can do. `Flow.Sat` carries a property of states through the operations of a request:
`transportWrite_sat`, `delay_sat` and `respond_sat` say once what each primitive leads to, the rules for `bind` and
`finish` compose them, `exec_command`, `exec_send8`, `exec_blon` and `exec_bloff` give requests as
lists of writes, delays and a response; `Closed.exec` says once everything a request can do. -/

namespace Sys2Proof.Machine

/-- Where a flow goes on, `post` holds of its value and state; where it goes no further, `ended` holds of its state. -/
def Flow.Sat {α : Type} (f : Flow α) (post : α → State → Prop) (ended : State → Prop) : Prop :=
  match f with
  | .go a s => post a s
  | .stop s => ended s

theorem Flow.Sat.bind {α β : Type} {f : Flow α} {k : α → State → Flow β} {P : α → State → Prop} {Q : β → State → Prop}
    {E : State → Prop} (hf : f.Sat P E) (hk : ∀ a s, P a s → (k a s).Sat Q E) : (f.bind k).Sat Q E := by
  cases f with
  | go a s => exact hk a s hf
  | stop s => exact hf

theorem Flow.Sat.finish {α : Type} {f : Flow α} {k : α → State → State} {P : α → State → Prop} {E : State → Prop}
    (hf : f.Sat P E) (hk : ∀ a s, P a s → E (k a s)) : E (f.finish k) := by
  cases f with
  | go a s => exact hk a s hf
  | stop s => exact hf

theorem Flow.Sat.mono {α : Type} {f : Flow α} {P P' : α → State → Prop} {E E' : State → Prop} (hf : f.Sat P E)
    (hP : ∀ a s, P a s → P' a s) (hE : ∀ s, E s → E' s) : f.Sat P' E' := by
  cases f with
  | go a s => exact hP a s hf
  | stop s => exact hE s hf

/-- What a transport write leads to, from what each of its five ways to end gives. -/
theorem transportWrite_sat {b : Byte} {s : State} {P : Bool → State → Prop} {E : State → Prop}
    (hok : ∀ rs, rs.length = s.resets.length → P true (landed b { s with resets := rs }))
    (hfail : ∀ rs, rs.length = s.resets.length → P false (disturb (recordWrite b .fail { s with resets := rs })))
    (hnever : ∀ rs, rs.length = s.resets.length → E (disturb (recordOpenWrite b .unanswered { s with resets := rs })))
    (hbefore : ∀ rs, rs.length + 1 = s.resets.length → E (takeReset { s with resets := rs }))
    (hduring : ∀ rs, rs.length + 1 = s.resets.length →
      E (takeReset (disturb (recordOpenWrite b .cut { s with resets := rs })))) :
    (transportWrite b s).Sat P E := by
  obtain ⟨rs, hl, h | h | h⟩ | ⟨rs, hl, h | h⟩ := transportWrite_cases b s <;> rw [h]
  · exact hok rs hl
  · exact hfail rs hl
  · exact hnever rs hl
  · exact hbefore rs hl
  · exact hduring rs hl

/-- What a delay leads to. -/
theorem delay_sat {d : Nat} {s : State} {P : State → Prop} {E : State → Prop} (hzero : d = 0 → P s)
    (hwait : d ≠ 0 → ∀ rs, rs.length = s.resets.length → P (waited d { s with resets := rs }))
    (hreset : d ≠ 0 → ∀ rs, rs.length + 1 = s.resets.length → E (takeReset { s with resets := rs })) :
    (delay d s).Sat (fun _ => P) E := by
  obtain ⟨hd, h⟩ | ⟨hd, rs, hl, h⟩ | ⟨hd, rs, hl, h⟩ := delay_cases d s <;> rw [h]
  · exact hzero hd
  · exact hwait hd rs hl
  · exact hreset hd rs hl

/-- What a response leads to. -/
theorem respond_sat {c : Code} {d : Byte} {s : State} {E : State → Prop}
    (hrsp : ∀ rs, rs.length = s.resets.length → E (responded c d { s with resets := rs }))
    (hreset : ∀ rs, rs.length + 1 = s.resets.length → E (takeReset { s with resets := rs })) : E (respond c d s) := by
  obtain ⟨rs, hl, h⟩ | ⟨rs, hl, h⟩ := respond_cases c d s <;> rw [h]
  · exact hrsp rs hl
  · exact hreset rs hl

/-- A list of writes keeps a property of states that a write answered `ok` keeps: it goes on with true and the property, or
with false after a failed write, or ends as a write ends. -/
theorem writeAll_sat {I : State → Prop} {F E : State → Prop} (bs : List Byte)
    (hwrite : ∀ b ∈ bs, ∀ s, I s → (transportWrite b s).Sat (fun r t => if r then I t else F t) E)
    {s : State} (hs : I s) : (writeAll bs s).Sat (fun r t => if r then I t else F t) E := by
  induction bs generalizing s with
  | nil => exact hs
  | cons b bs ih =>
    refine (hwrite b (List.mem_cons_self ..) s hs).bind fun r t ht => ?_
    cases r with
    | true => exact ih (fun c hc => hwrite c (List.mem_cons_of_mem b hc)) ht
    | false => exact ht

end Sys2Proof.Machine

namespace Sys2Proof.Safety

open Sys2Proof.Machine

theorem ddramByte_eq (addr : BitVec 7) : ddramByte addr = 1#1 ++ addr := by
  revert addr; decide

/-- Each request of the command set is one cmd with the byte and delay of the table (R138). -/
theorem exec_command {i : Instr} {opc : Byte} {d : Nat} {s : State} (h : command s.params i = some (opc, d)) :
    exec i s = .next (respondResult (cmd opc d s)) := by
  cases i <;> simp only [command, Option.some.injEq, Prod.mk.injEq, reduceCtorEq] at h
  case setddram addr => obtain ⟨rfl, rfl⟩ := h; rw [← ddramByte_eq]; rfl
  all_goals obtain ⟨rfl, rfl⟩ := h; rfl

/-- cmd is the six writes of its byte, then its delay in either case (R130). -/
theorem cmd_eq (opc : Byte) (d : Nat) (s : State) :
    cmd opc d s = (writeAll (transferBytes s.bl 0 opc) s).bind fun r s => (delay d s).bind fun _ s => .go r s := by
  rw [cmd, send8_eq_writeAll]

/-- A command's helper with every write answered `ok`. -/
theorem cmd_ok (opc : Byte) (d : Nat) {s : State} (h : AllOk 6 s) :
    cmd opc d s = .go true (afterDelay d (landedAll (transferBytes s.bl 0 opc) s)) := by
  rw [cmd_eq, writeAll_ok (transferBytes s.bl 0 opc) h, Flow.bind_go, delay_eq (by simpa using h.1), Flow.bind_go]

/-- A command's helper with its write number `k` the first answered `fail`. -/
theorem cmd_fail (opc : Byte) (d : Nat) {k : Nat} {b : Byte} {s : State} (hb : (transferBytes s.bl 0 opc)[k]? = some b)
    (h : AnsweredAt k .fail s) :
    cmd opc d s =
      .go false (afterDelay d (disturb (recordWrite b .fail (landedAll ((transferBytes s.bl 0 opc).take k) s)))) := by
  rw [cmd_eq, writeAll_fail _ hb h, Flow.bind_go, delay_eq (by simpa using h.1), Flow.bind_go]

/-- The response to a result, with no reset asserted. -/
theorem respondResult_go {r : Bool} {s : State} (h : s.resets = []) :
    respondResult (.go r s) = responded (Code.ofResult r) 0 s := respond_quiet h

@[simp] theorem respondResult_stop (s : State) : respondResult (.stop s) = s := rfl

theorem exec_send8 (rs : Line) (v : Byte) (s : State) :
    exec (.send8 0 rs v) s = .next (respondResult (writeAll (transferBytes s.bl rs v) s)) := by
  rw [← send8_eq_writeAll]; rfl

theorem exec_blon (s : State) :
    exec .blon s = .next (respondResult (writeAll [0x0C] (setBacklight true s))) := by
  rw [show (0x0C : Byte) = pinByte 0 true true 0 by decide]
  exact congrArg (fun f => Host.Outcome.next (respondResult f)) (applyBacklight_eq_writeAll (setBacklight true s))

theorem exec_bloff (s : State) :
    exec .bloff s = .next (respondResult (writeAll [0x04] (setBacklight false s))) := by
  rw [show (0x04 : Byte) = pinByte 0 false true 0 by decide]
  exact congrArg (fun f => Host.Outcome.next (respondResult f)) (applyBacklight_eq_writeAll (setBacklight false s))

/-- The bytes a step of INIT sends at backlight flag `bl` (R160). -/
def InitAction.bytes (bl : Bool) (a : InitAction) : List Byte :=
  match a with
  | .forced n => strobeBytes bl 0 n
  | .byte v => transferBytes bl 0 v

theorem sendInit_eq (a : InitAction) (s : State) : sendInit a s = writeAll (InitAction.bytes s.bl a) s := by
  cases a with
  | forced n => exact send4f_eq_writeAll n s
  | byte v => exact send8_eq_writeAll 0 v s

/-- The rows of the table are the steps of INIT (R160, R161). -/
theorem initRows_eq (bl : Bool) (p : Config.Params) :
    initRows bl p = (initSteps p).map fun st => ⟨InitAction.bytes bl st.sends, st.wait, st.enters⟩ := rfl

/-! ### Everything a request can do -/

/-- A byte the bridge may write while BL is `bl`: RW = 0 and the backlight bit equal to BL (R26, R29). -/
def Writeable (bl : Bool) (b : Byte) : Prop := b.getLsbD 1 = false ∧ b.getLsbD 3 = bl

/-- The data an OK response to `i` may carry in state `s` (R81). -/
def OkData (i : Instr) (s : State) (d : Byte) : Prop :=
  (d = 0 ∧ i ≠ .status) ∨ (i = .print ∧ d.toNat ≤ 16) ∨ (i = .status ∧ d = statusByte s)

/-- The data a FAIL response to `i` may carry (R81, R200). -/
def FailData (i : Instr) (d : Byte) : Prop := d = 0 ∨ (i = .print ∧ d.toNat ≤ 16)

/-- What three properties of states must satisfy to follow the request `i` through: `P` while every write so far was
answered `ok`, `F` after a failed write, and `E` of the state the request ends in. -/
structure Closed (i : Instr) (P F E : State → Prop) : Prop where
  /-- A write answered `ok`. -/
  ok : ∀ b s rs, Writeable s.bl b → rs.length = s.resets.length → P s → P (landed b { s with resets := rs })
  /-- A write answered `fail`. -/
  fail : ∀ b s rs, Writeable s.bl b → rs.length = s.resets.length → P s →
    F (disturb (recordWrite b .fail { s with resets := rs }))
  /-- A write never answered. -/
  never : ∀ b s rs, Writeable s.bl b → rs.length = s.resets.length → P s →
    E (disturb (recordOpenWrite b .unanswered { s with resets := rs }))
  /-- A reset with no write in progress. -/
  reset : ∀ s rs, rs.length + 1 = s.resets.length → P s ∨ F s → E (takeReset { s with resets := rs })
  /-- A reset during a write. -/
  cut : ∀ b s rs, Writeable s.bl b → rs.length + 1 = s.resets.length → P s →
    E (takeReset (disturb (recordOpenWrite b .cut { s with resets := rs })))
  /-- A delay. -/
  waitOk : ∀ d s rs, d ≠ 0 → rs.length = s.resets.length → P s → P (waited d { s with resets := rs })
  waitFail : ∀ d s rs, d ≠ 0 → rs.length = s.resets.length → F s → F (waited d { s with resets := rs })
  /-- The response. -/
  answerOk : ∀ d s rs, i.wellFormed = true → OkData i s d → rs.length = s.resets.length → P s →
    E (responded .ok d { s with resets := rs })
  answerFail : ∀ d s rs, FailData i d → rs.length = s.resets.length → F s →
    E (responded .fail d { s with resets := rs })
  answerIllegal : ∀ s rs, i.wellFormed = false → rs.length = s.resets.length → P s →
    E (responded .illegal 0 { s with resets := rs })
  /-- The state each request writes of its own. -/
  initStart : ∀ s, i = .init → P s → P (beginInit s)
  initEnter : ∀ s k, i = .init → k.toNat ≤ 9 → s.initErr = false → P s → P (enterInit k s)
  initAbort : ∀ s, i = .init → s.initState.toNat ≤ 7 → F s → F (abortInit s)
  text : ∀ s idx byte, i = .ldtxt idx byte → P s → P (storeText idx byte s)

theorem strobeBytes_writeable (bl : Bool) (rs : Line) (n : Nibble) : ∀ b ∈ strobeBytes bl rs n, Writeable bl b := by
  have h : ∀ en, Writeable bl (pinByte n bl en rs) := by
    intro en; unfold Writeable; revert bl rs n en; decide
  simp [strobeBytes, h]

theorem transferBytes_writeable (bl : Bool) (rs : Line) (v : Byte) : ∀ b ∈ transferBytes bl rs v, Writeable bl b := by
  intro b hb
  rcases List.mem_append.mp hb with hb | hb <;> exact strobeBytes_writeable _ _ _ b hb

/-- What a list of writes inside a request leads to: the registers, the text and the inputs stay, and the property of
states is `P` if all writes succeeded and `F` if one failed. -/
theorem Closed.writeAll {i : Instr} {P F E : State → Prop} (C : Closed i P F E) (bs : List Byte) {s : State}
    (hb : ∀ b ∈ bs, Writeable s.bl b) (hP : P s) :
    (Machine.writeAll bs s).Sat (fun r t => (if r then P t else F t) ∧ t.bl = s.bl ∧ t.initState = s.initState ∧
      t.initErr = s.initErr ∧ t.text = s.text ∧ t.params = s.params) E := by
  induction bs generalizing s with
  | nil => exact ⟨hP, rfl, rfl, rfl, rfl, rfl⟩
  | cons b bs ih =>
    have hw := hb b (List.mem_cons_self ..)
    refine Flow.Sat.bind (P := fun r t => (if r then P t else F t) ∧ t.bl = s.bl ∧ t.initState = s.initState ∧
      t.initErr = s.initErr ∧ t.text = s.text ∧ t.params = s.params) ?_ fun r t ht => ?_
    · exact transportWrite_sat (fun rs hl => ⟨C.ok b s rs hw hl hP, rfl, rfl, rfl, rfl, rfl⟩)
        (fun rs hl => ⟨C.fail b s rs hw hl hP, rfl, rfl, rfl, rfl, rfl⟩) (fun rs hl => C.never b s rs hw hl hP)
        (fun rs hl => C.reset s rs hl (.inl hP)) (fun rs hl => C.cut b s rs hw hl hP)
    · obtain ⟨hr, h1, h2, h3, h4, h5⟩ := ht
      cases r with
      | false => exact ⟨hr, h1, h2, h3, h4, h5⟩
      | true =>
        refine (ih (s := t) (fun c hc => h1 ▸ hb c (List.mem_cons_of_mem b hc)) hr).mono (fun r u hu => ?_) fun _ h => h
        rw [h1, h2, h3, h4, h5] at hu
        exact hu

/-- What a delay inside a request leads to, whether or not a write failed before it. -/
theorem Closed.delay {i : Instr} {P F E : State → Prop} (C : Closed i P F E) (d : Nat) {s : State} {r : Bool}
    (h : if r then P s else F s) :
    (Machine.delay d s).Sat (fun _ t => (if r then P t else F t) ∧ t.bl = s.bl ∧ t.initState = s.initState ∧
      t.initErr = s.initErr ∧ t.text = s.text ∧ t.params = s.params) E := by
  cases r with
  | true =>
    exact delay_sat (P := fun t => P t ∧ _) (fun _ => ⟨h, rfl, rfl, rfl, rfl, rfl⟩)
      (fun hd rs hl => ⟨C.waitOk d s rs hd hl h, rfl, rfl, rfl, rfl, rfl⟩)
      (fun hd rs hl => C.reset s rs hl (.inl h))
  | false =>
    exact delay_sat (P := fun t => F t ∧ _) (fun _ => ⟨h, rfl, rfl, rfl, rfl, rfl⟩)
      (fun hd rs hl => ⟨C.waitFail d s rs hd hl h, rfl, rfl, rfl, rfl, rfl⟩)
      (fun hd rs hl => C.reset s rs hl (.inr h))

theorem Closed.respondOk {i : Instr} {P F E : State → Prop} (C : Closed i P F E) {d : Byte} {s : State}
    (hi : i.wellFormed = true) (hd : ∀ rs, OkData i { s with resets := rs } d) (h : P s) : E (respond .ok d s) :=
  respond_sat (fun rs hl => C.answerOk d s rs hi (hd s.resets) hl h) fun rs hl => C.reset s rs hl (.inl h)

theorem Closed.respondFail {i : Instr} {P F E : State → Prop} (C : Closed i P F E) {d : Byte} {s : State}
    (hd : FailData i d) (h : F s) : E (respond .fail d s) :=
  respond_sat (fun rs hl => C.answerFail d s rs hd hl h) fun rs hl => C.reset s rs hl (.inr h)

theorem Closed.respondIllegal {i : Instr} {P F E : State → Prop} (C : Closed i P F E) {s : State}
    (hi : i.wellFormed = false) (h : P s) : E (raiseIllegal s) :=
  respond_sat (fun rs hl => C.answerIllegal s rs hi hl h) fun rs hl => C.reset s rs hl (.inl h)

/-- The response to the result of a flow with no data. -/
theorem Closed.respondResult {i : Instr} {P F E : State → Prop} (C : Closed i P F E) {f : Flow Bool}
    (hi : i.wellFormed = true) (hs : i ≠ .status) (hf : f.Sat (fun r t => if r then P t else F t) E) :
    E (Machine.respondResult f) := by
  refine Flow.Sat.finish hf fun r t ht => ?_
  cases r with
  | true => exact C.respondOk hi (fun _ => .inl ⟨rfl, hs⟩) ht
  | false => exact C.respondFail (.inl rfl) ht

/-- A command follows the request through (R130, R138). -/
theorem Closed.command {i : Instr} {P F E : State → Prop} (C : Closed i P F E) (hi : i.wellFormed = true)
    (hs : i ≠ .status) (opc : Byte) (d : Nat) {s : State} (h : P s) :
    E (Machine.respondResult (cmd opc d s)) := by
  refine C.respondResult hi hs ?_
  rw [cmd_eq]
  refine (C.writeAll _ (transferBytes_writeable s.bl 0 opc) h).bind fun r t ht => ?_
  exact (C.delay d ht.1).bind fun _ u hu => hu.1

theorem InitAction.bytes_writeable (bl : Bool) (a : InitAction) : ∀ b ∈ InitAction.bytes bl a, Writeable bl b := by
  cases a with
  | forced n => exact strobeBytes_writeable bl 0 n
  | byte v => exact transferBytes_writeable bl 0 v

/-- The loop of INIT follows the request through, from a state whose `INIT_STATE` the remaining steps count on from. -/
theorem Closed.runInit {P F E : State → Prop} (C : Closed .init P F E) (steps : List InitStep) :
    ∀ (n : Nat) {s : State}, (steps.map InitStep.enters).map BitVec.toNat = List.range' (n + 1) steps.length →
      n + steps.length = 8 → s.initState.toNat = n → s.initErr = false → P s → E (Machine.runInit steps s) := by
  induction steps with
  | nil =>
    intro n s _ _ _ he h
    exact C.respondOk rfl (fun _ => .inl ⟨rfl, by simp⟩) (C.initEnter s 9 rfl (by decide) he h)
  | cons st steps ih =>
    intro n s hk hn hs he h
    simp only [List.map_cons, List.length_cons, List.range'_succ, List.cons.injEq] at hk hn
    unfold Machine.runInit initStep
    rw [sendInit_eq, Flow.finish_bind]
    refine Flow.Sat.finish (C.writeAll _ (InitAction.bytes_writeable s.bl st.sends) h) fun r t ht => ?_
    obtain ⟨hr, -, hti, hte, -, -⟩ := ht
    rw [Flow.finish_bind]
    cases r with
    | true =>
      have hP : P (enterInit st.enters t) := C.initEnter t st.enters rfl (by omega) (hte.trans he) hr
      refine Flow.Sat.finish (C.delay (r := true) st.wait hP) fun _ u hu => ?_
      obtain ⟨hr, -, hui, hue, -, -⟩ := hu
      exact ih (n + 1) hk.2 (by omega) (by rw [hui]; exact hk.1) (hue.trans (hte.trans he)) hr
    | false =>
      refine Flow.Sat.finish (C.delay (r := false) st.wait hr) fun _ u hu => ?_
      obtain ⟨hr, -, hui, -, -, -⟩ := hu
      have hi : u.initState.toNat ≤ 7 := by
        have h' : u.initState = s.initState := by rw [hui]; exact hti
        rw [h']; omega
      exact C.respondFail (.inl rfl) (C.initAbort u rfl hi hr)

/-- The loop of PRINT follows the request through. -/
theorem Closed.printFrom {P F E : State → Prop} (C : Closed .print P F E) (n : Nat) :
    ∀ (j : Nat) {s : State}, n + j ≤ 16 → P s → E (Machine.printFrom n j s) := by
  have hdata : ∀ j, j ≤ 16 → (BitVec.ofNat 8 j).toNat ≤ 16 := by
    intro j hj; rw [BitVec.toNat_ofNat]; omega
  induction n with
  | zero =>
    intro j s hj h
    exact C.respondOk rfl (fun _ => .inr (.inl ⟨rfl, hdata j (by omega)⟩)) h
  | succ n ih =>
    intro j s hj h
    unfold Machine.printFrom
    split
    · exact C.respondOk rfl (fun _ => .inr (.inl ⟨rfl, hdata j (by omega)⟩)) h
    · rw [send8_eq_writeAll]
      refine Flow.Sat.finish (C.writeAll _ (transferBytes_writeable s.bl 1 _) h) fun r t ht => ?_
      cases r with
      | true => exact ih (j + 1) (by omega) ht.1
      | false => exact C.respondFail (.inr ⟨rfl, hdata j (by omega)⟩) ht.1

/-- Everything a request can do: from a state with `P`, the state it ends in has `E`. BLON and BLOFF set BL first, so `P`
is asked of the state with BL set. -/
theorem Closed.exec {i : Instr} {P F E : State → Prop} (C : Closed i P F E) {s t : State}
    (hP : P (setBacklight (if i = .blon then true else if i = .bloff then false else s.bl) s))
    (h : Machine.exec i s = .next t) : E t := by
  have hcmd : ∀ opc d, Safety.command s.params i = some (opc, d) → P s → E t := by
    intro opc d hc hs
    rw [exec_command hc] at h
    cases h
    refine C.command ?_ ?_ opc d hs <;> cases i <;> first | rfl | (simp [Safety.command] at hc; done) | simp
  have hone : ∀ b u, Writeable u.bl b → P u → i.wellFormed = true → i ≠ .status →
      E (Machine.respondResult (Machine.writeAll [b] u)) := by
    intro b u hb hu hi hs
    exact C.respondResult hi hs ((C.writeAll [b] (by simpa using hb) hu).mono (fun _ _ h => h.1) fun _ h => h)
  cases i with
  | send8 rw rs v =>
    by_cases hrw : rw = 0
    · subst hrw
      rw [exec_send8] at h
      cases h
      refine C.respondResult rfl (by simp) ?_
      exact (C.writeAll _ (transferBytes_writeable s.bl rs v) hP).mono (fun _ _ h => h.1) fun _ h => h
    · simp only [Machine.exec, execSend8, if_neg hrw] at h
      cases h
      exact C.respondIllegal (by simpa [Instr.wellFormed] using hrw) hP
  | fnset => exact hcmd _ _ rfl hP
  | dispon => exact hcmd _ _ rfl hP
  | dispoff => exact hcmd _ _ rfl hP
  | clear => exact hcmd _ _ rfl hP
  | entry => exact hcmd _ _ rfl hP
  | home => exact hcmd _ _ rfl hP
  | setddram addr => exact hcmd _ _ rfl hP
  | blon =>
    rw [exec_blon] at h
    cases h
    exact hone _ _ (show Writeable true 0x0C by unfold Writeable; decide) hP rfl (by simp)
  | bloff =>
    rw [exec_bloff] at h
    cases h
    exact hone _ _ (show Writeable false 0x04 by unfold Writeable; decide) hP rfl (by simp)
  | init =>
    cases h
    refine Flow.Sat.finish (C.delay (r := true) s.params.tPwrUs (C.initStart s rfl hP)) fun _ t ht => ?_
    exact C.runInit (initSteps t.params) 0 rfl rfl (by rw [ht.2.2.1]; rfl) ht.2.2.2.1 ht.1
  | ldtxt idx byte =>
    cases h
    exact C.respondOk rfl (fun _ => .inl ⟨rfl, by simp⟩) (C.text s idx byte rfl hP)
  | print =>
    cases h
    exact C.printFrom s.params.textLen 0 (by have := s.params.textLen.isLt; omega) hP
  | status =>
    cases h
    exact C.respondOk rfl (fun _ => .inr (.inr ⟨rfl, rfl⟩)) hP

end Sys2Proof.Safety
end

