-- ==== Sys2Proof/Laws/Init.lean ====
section
/-! SUPPORT. INIT (R160) with no reset asserted: each step on each answer of the bus, and any number of complete steps as
one state. -/

namespace Sys2Proof.Safety

open Sys2Proof.Machine

/-! ### Environments depend on the inputs alone -/

theorem AllOk.congr {n : Nat} {s t : State} (h : AllOk n s) (hr : t.resets = s.resets) (ha : t.answers = s.answers) :
    AllOk n t := by
  unfold AllOk at *
  rw [hr, ha]
  exact h

theorem AnsweredAt.congr {k : Nat} {a : BusAnswer} {s t : State} (h : AnsweredAt k a s) (hr : t.resets = s.resets)
    (ha : t.answers = s.answers) : AnsweredAt k a t := by
  unfold AnsweredAt at *
  rw [hr, ha]
  exact h

/-! ### One step -/

/-- The state after a step whose writes all landed. -/
def afterStep (st : InitStep) (s : State) : State :=
  afterDelay st.wait (enterInit st.enters (landedAll (InitAction.bytes s.bl st.sends) s))

theorem initStep_ok {st : InitStep} {s : State} (h : AllOk (InitAction.bytes s.bl st.sends).length s) :
    initStep st s = .go true (afterStep st s) := by
  rw [initStep, sendInit_eq, writeAll_ok _ h, Flow.bind_go]
  simp only [if_true]
  rw [delay_eq (by simpa using h.1), Flow.bind_go]
  rfl

/-- A failed step still waits, and does not enter its state (R160). -/
theorem initStep_fail {st : InitStep} {s : State} {k : Nat} {b : Byte}
    (hb : (InitAction.bytes s.bl st.sends)[k]? = some b) (h : AnsweredAt k .fail s) :
    initStep st s = .go false (afterDelay st.wait
      (disturb (recordWrite b .fail (landedAll ((InitAction.bytes s.bl st.sends).take k) s)))) := by
  rw [initStep, sendInit_eq, writeAll_fail _ hb h, Flow.bind_go]
  simp only [Bool.false_eq_true, if_false]
  rw [delay_eq (by simpa using h.1), Flow.bind_go]

theorem initStep_never {st : InitStep} {s : State} {k : Nat} {b : Byte}
    (hb : (InitAction.bytes s.bl st.sends)[k]? = some b) (h : AnsweredAt k .never s) :
    initStep st s =
      .stop (disturb (recordOpenWrite b .unanswered (landedAll ((InitAction.bytes s.bl st.sends).take k) s))) := by
  rw [initStep, sendInit_eq, writeAll_never _ hb h, Flow.bind_stop]

@[simp] theorem afterStep_bl (st : InitStep) (s : State) : (afterStep st s).bl = s.bl := by simp [afterStep]
@[simp] theorem afterStep_initState (st : InitStep) (s : State) : (afterStep st s).initState = st.enters := by
  simp [afterStep]
@[simp] theorem afterStep_initErr (st : InitStep) (s : State) : (afterStep st s).initErr = s.initErr := by
  simp [afterStep]
@[simp] theorem afterStep_text (st : InitStep) (s : State) : (afterStep st s).text = s.text := by simp [afterStep]
@[simp] theorem afterStep_seq (st : InitStep) (s : State) : (afterStep st s).seq = s.seq := by simp [afterStep]
@[simp] theorem afterStep_params (st : InitStep) (s : State) : (afterStep st s).params = s.params := by
  simp [afterStep]
@[simp] theorem afterStep_requests (st : InitStep) (s : State) : (afterStep st s).requests = s.requests := by
  simp [afterStep]
@[simp] theorem afterStep_resets (st : InitStep) (s : State) : (afterStep st s).resets = s.resets := by
  simp [afterStep]
theorem afterStep_timer (st : InitStep) (s : State) :
    (afterStep st s).timer = if st.wait = 0 then s.timer else none := by
  simp [afterStep]
@[simp] theorem afterStep_answers (st : InitStep) (s : State) :
    (afterStep st s).answers = s.answers.drop (InitAction.bytes s.bl st.sends).length := by
  simp [afterStep]
@[simp] theorem afterStep_events (st : InitStep) (s : State) : (afterStep st s).events =
    s.events ++ (okWrites s.params.slaveAddr (InitAction.bytes s.bl st.sends) ++ waitEvents st.wait) := by
  simp [afterStep]

theorem AllOk.afterStep {st : InitStep} {s : State} {n : Nat}
    (h : AllOk ((InitAction.bytes s.bl st.sends).length + n) s) : AllOk n (afterStep st s) :=
  (h.after _).congr (by simp) (by simp)

theorem AnsweredAt.afterStep {st : InitStep} {s : State} {n : Nat} {a : BusAnswer}
    (h : AnsweredAt ((InitAction.bytes s.bl st.sends).length + n) a s) : AnsweredAt n a (afterStep st s) :=
  (h.after _).congr (by simp) (by simp)

/-! ### Several steps -/

/-- The bytes these steps send at backlight flag `bl`. -/
def stepsBytes (bl : Bool) (steps : List InitStep) : List Byte :=
  steps.flatMap fun st => InitAction.bytes bl st.sends

/-- The state after these steps, when the writes of all of them landed. -/
def afterSteps : List InitStep → State → State
  | [], s => s
  | st :: steps, s => afterSteps steps (afterStep st s)

@[simp] theorem stepsBytes_nil (bl : Bool) : stepsBytes bl [] = [] := rfl

@[simp] theorem stepsBytes_cons (bl : Bool) (st : InitStep) (steps : List InitStep) :
    stepsBytes bl (st :: steps) = InitAction.bytes bl st.sends ++ stepsBytes bl steps := List.flatMap_cons ..

/-- Writes up to one inside a step, after the writes of the steps before it. -/
theorem writesUpTo_steps (addr : BitVec 7) (bl : Bool) (pre post : List InitStep) {st : InitStep} {k : Nat} (e : WriteEnd)
    (hk : k < (InitAction.bytes bl st.sends).length) :
    writesUpTo addr (stepsBytes bl (pre ++ st :: post)) ((stepsBytes bl pre).length + k) e =
      okWrites addr (stepsBytes bl pre) ++ writesUpTo addr (InitAction.bytes bl st.sends) k e := by
  rw [← writesUpTo_middle _ _ _ (stepsBytes bl post) e hk]
  simp [stepsBytes]

/-- The bytes of table rows are the bytes of their steps. -/
theorem initRows_bytes (bl : Bool) (steps : List InitStep) :
    ((steps.map fun st => (⟨InitAction.bytes bl st.sends, st.wait, st.enters⟩ : InitRow)).flatMap InitRow.bytes) =
      stepsBytes bl steps := List.flatMap_map ..

@[simp] theorem filter_initEvents (addr : BitVec 7) (rows : List InitRow) :
    (initEvents addr rows).filter isWrite = okWrites addr (rows.flatMap InitRow.bytes) := by
  induction rows with
  | nil => rfl
  | cons r rows ih =>
    rw [show initEvents addr (r :: rows) = (okWrites addr r.bytes ++ waitEvents r.wait) ++ initEvents addr rows from rfl,
      List.filter_append, List.filter_append, ih, filter_okWrites, filter_waitEvents, List.append_nil,
      ← okWrites_append]
    rfl

/-- Steps whose writes land bring the loop to the steps after them. -/
theorem runInit_append (steps rest : List InitStep) {s : State} (h : AllOk (stepsBytes s.bl steps).length s) :
    runInit (steps ++ rest) s = runInit rest (afterSteps steps s) := by
  induction steps generalizing s with
  | nil => rfl
  | cons st steps ih =>
    simp only [stepsBytes_cons, List.length_append] at h
    simp only [List.cons_append, runInit, initStep_ok (h.mono (Nat.le_add_right _ _)), Flow.finish_go, if_true]
    exact ih (s := afterStep st s) (by simpa using h.afterStep)

theorem AnsweredAt.afterSteps {n : Nat} {a : BusAnswer} (steps : List InitStep) {s : State}
    (h : AnsweredAt ((stepsBytes s.bl steps).length + n) a s) : AnsweredAt n a (afterSteps steps s) := by
  induction steps generalizing s with
  | nil => simpa [Safety.afterSteps] using h
  | cons st steps ih =>
    simp only [stepsBytes_cons, List.length_append, Nat.add_assoc] at h
    exact ih (s := Safety.afterStep st s) (by simpa using h.afterStep)

@[simp] theorem afterSteps_bl (steps : List InitStep) (s : State) : (afterSteps steps s).bl = s.bl := by
  induction steps generalizing s with
  | nil => rfl
  | cons st steps ih => simp [afterSteps, ih]

@[simp] theorem afterSteps_initErr (steps : List InitStep) (s : State) : (afterSteps steps s).initErr = s.initErr := by
  induction steps generalizing s with
  | nil => rfl
  | cons st steps ih => simp [afterSteps, ih]

@[simp] theorem afterSteps_text (steps : List InitStep) (s : State) : (afterSteps steps s).text = s.text := by
  induction steps generalizing s with
  | nil => rfl
  | cons st steps ih => simp [afterSteps, ih]

@[simp] theorem afterSteps_seq (steps : List InitStep) (s : State) : (afterSteps steps s).seq = s.seq := by
  induction steps generalizing s with
  | nil => rfl
  | cons st steps ih => simp [afterSteps, ih]

@[simp] theorem afterSteps_params (steps : List InitStep) (s : State) :
    (afterSteps steps s).params = s.params := by
  induction steps generalizing s with
  | nil => rfl
  | cons st steps ih => simp [afterSteps, ih]

@[simp] theorem afterSteps_requests (steps : List InitStep) (s : State) :
    (afterSteps steps s).requests = s.requests := by
  induction steps generalizing s with
  | nil => rfl
  | cons st steps ih => simp [afterSteps, ih]

@[simp] theorem afterSteps_resets (steps : List InitStep) (s : State) : (afterSteps steps s).resets = s.resets := by
  induction steps generalizing s with
  | nil => rfl
  | cons st steps ih => simp [afterSteps, ih]

/-- The delay timer is idle after the first wait that is not 0 (R213). -/
theorem afterSteps_timer (steps : List InitStep) (s : State) :
    (afterSteps steps s).timer = if (steps.map InitStep.wait).sum = 0 then s.timer else none := by
  induction steps generalizing s with
  | nil => rfl
  | cons st steps ih =>
    rw [afterSteps, ih, afterStep_timer, List.map_cons, List.sum_cons]
    by_cases h1 : st.wait = 0 <;> by_cases h2 : (steps.map InitStep.wait).sum = 0 <;> simp [h1, h2]

@[simp] theorem afterSteps_answers (steps : List InitStep) (s : State) :
    (afterSteps steps s).answers = s.answers.drop (stepsBytes s.bl steps).length := by
  induction steps generalizing s with
  | nil => simp [afterSteps]
  | cons st steps ih => simp [afterSteps, ih]

/-- The state entered last (R162). -/
theorem afterSteps_initState (steps : List InitStep) (s : State) :
    (afterSteps steps s).initState = (steps.getLast?.map InitStep.enters).getD s.initState := by
  induction steps generalizing s with
  | nil => rfl
  | cons st steps ih =>
    simp only [afterSteps, ih, afterStep_initState]
    cases steps with
    | nil => rfl
    | cons st' steps => simp [List.getLast?_cons]

@[simp] theorem afterSteps_events (steps : List InitStep) (s : State) : (afterSteps steps s).events =
    s.events ++ initEvents s.params.slaveAddr (steps.map fun st => ⟨InitAction.bytes s.bl st.sends, st.wait, st.enters⟩) := by
  induction steps generalizing s with
  | nil => simp [afterSteps, initEvents]
  | cons st steps ih => simp [afterSteps, ih, initEvents]

/-- The latches of a complete sequence (R163). -/
theorem afterSteps_latches (p : Config.Params) (s : State) : (afterSteps (initSteps p) s).latches =
    s.latches ++ ([3, 3, 3, 2, 2, 8, 0, 8, 0, 1, 0, 6] : List Nibble).map (fun n => ⟨0, 0, n⟩) := by
  simp [initSteps, afterSteps, afterStep, InitAction.bytes, transferLatches]

theorem afterSteps_pins (p : Config.Params) (s : State) : (afterSteps (initSteps p) s).pins = pinByte 6 s.bl true 0 := by
  simp [initSteps, afterSteps, afterStep, InitAction.bytes, landedAll_transfer_pins]

/-! ### The whole request -/

/-- INIT begins with its settle wait (R160). -/
theorem exec_init {s : State} (h : s.resets = []) :
    exec .init s = .next (runInit (initSteps s.params) (afterDelay s.params.tPwrUs (beginInit s))) := by
  show Host.Outcome.next _ = _
  rw [delay_eq (s := beginInit s) h, Flow.finish_go, afterDelay_params]
  rfl

/-- The loop when the writes of every step land. -/
theorem runInit_complete (steps : List InitStep) {s : State} (h : AllOk (stepsBytes s.bl steps).length s) :
    runInit steps s = responded .ok 0 (enterInit 9 (afterSteps steps s)) := by
  have := runInit_append steps [] h
  rw [List.append_nil] at this
  rw [this, runInit, respond_quiet (by simpa using h.1)]

/-- The step of INIT whose write gets the answer number `k` of a list, and that write's number inside the step. -/
theorem stepsBytes_split (bl : Bool) (steps : List InitStep) {k : Nat} (h : k < (stepsBytes bl steps).length) :
    ∃ pre st post m, steps = pre ++ st :: post ∧ m < (InitAction.bytes bl st.sends).length ∧
      k = (stepsBytes bl pre).length + m := by
  induction steps generalizing k with
  | nil => simp at h
  | cons st steps ih =>
    simp only [stepsBytes_cons, List.length_append] at h
    by_cases hk : k < (InitAction.bytes bl st.sends).length
    · exact ⟨[], st, steps, k, rfl, hk, by simp⟩
    · obtain ⟨pre, st', post, m, rfl, hm, hk'⟩ := ih (k := k - (InitAction.bytes bl st.sends).length) (by omega)
      exact ⟨st :: pre, st', post, m, rfl, hm, by simp; omega⟩

/-- The loop when a step has a failed write after steps whose writes landed (R164). -/
theorem runInit_fail (pre post : List InitStep) {st : InitStep} {k : Nat} {b : Byte} {s : State}
    (hb : (InitAction.bytes s.bl st.sends)[k]? = some b)
    (h : AnsweredAt ((stepsBytes s.bl pre).length + k) .fail s) :
    runInit (pre ++ st :: post) s = responded .fail 0 (abortInit (afterDelay st.wait
      (disturb (recordWrite b .fail (landedAll ((InitAction.bytes s.bl st.sends).take k) (afterSteps pre s)))))) := by
  rw [runInit_append _ _ (h.allOk.mono (Nat.le_add_right _ _)), runInit,
    initStep_fail (k := k) (b := b) (by simpa using hb) (AnsweredAt.afterSteps pre h)]
  simp only [Flow.finish_go, Bool.false_eq_true, if_false, afterSteps_bl]
  rw [respond_quiet (by simpa using h.1)]

/-- The loop when a step has a write that is never answered (R246). -/
theorem runInit_never (pre post : List InitStep) {st : InitStep} {k : Nat} {b : Byte} {s : State}
    (hb : (InitAction.bytes s.bl st.sends)[k]? = some b)
    (h : AnsweredAt ((stepsBytes s.bl pre).length + k) .never s) :
    runInit (pre ++ st :: post) s =
      disturb (recordOpenWrite b .unanswered (landedAll ((InitAction.bytes s.bl st.sends).take k) (afterSteps pre s))) := by
  rw [runInit_append _ _ (h.allOk.mono (Nat.le_add_right _ _)), runInit,
    initStep_never (k := k) (b := b) (by simpa using hb) (AnsweredAt.afterSteps pre h)]
  simp only [Flow.finish_stop, afterSteps_bl]

end Sys2Proof.Safety
end

