-- ==== Sys2Proof/Laws/Memory.lean ====
section
/-! SUPPORT. The text buffer (R51): a read after a write, and every write keeps the canonical form. -/

namespace Sys2Proof.Machine

@[simp] theorem Memory.read_nil (a : Nat) : Memory.read [] a = 0 := rfl

theorem Memory.read_consCell (a : Nat) (v : Byte) (m : Memory) (j : Nat) (h : Memory.read m a = 0) :
    Memory.read (Memory.consCell a v m) j = if a = j then v else Memory.read m j := by
  unfold Memory.consCell
  by_cases hv : v = 0
  · by_cases hj : a = j
    · subst hj; simp [hv, h]
    · simp [hv, hj]
  · rw [if_neg hv]; simp [Memory.read]

/-- Below a canonical memory's first address every byte reads 0x00. -/
theorem Memory.read_below (m : Memory) : ∀ {lo a : Nat}, Memory.wfFrom lo m = true → a < lo → Memory.read m a = 0 := by
  induction m with
  | nil => intro lo a _ _; rfl
  | cons c m ih =>
    obtain ⟨k, v⟩ := c
    intro lo a h ha
    simp only [Memory.wfFrom, Bool.and_eq_true, decide_eq_true_eq] at h
    have hk : k ≠ a := by omega
    simp only [Memory.read, hk, if_false]
    exact ih h.2 (by omega)

/-- A write of `v` at `a` reads back as `v` at `a` and leaves every other address as it was. -/
theorem Memory.read_write (m : Memory) : ∀ {lo : Nat} (a : Nat) (v : Byte) (j : Nat), Memory.wfFrom lo m = true →
    Memory.read (Memory.write m a v) j = if a = j then v else Memory.read m j := by
  induction m with
  | nil => intro lo a v j _; exact Memory.read_consCell a v [] j rfl
  | cons c m ih =>
    obtain ⟨k, x⟩ := c
    intro lo a v j h
    have hfull := h
    simp only [Memory.wfFrom, Bool.and_eq_true, decide_eq_true_eq] at h
    unfold Memory.write
    split
    · rename_i hlt
      refine Memory.read_consCell a v _ j ?_
      have hk : k ≠ a := by omega
      simp only [Memory.read, hk, if_false]
      exact Memory.read_below m h.2 (by omega)
    · split
      · rename_i _ heq
        subst heq
        rw [Memory.read_consCell a v m j (Memory.read_below m h.2 (by omega))]
        by_cases hj : a = j
        · simp [hj]
        · simp [hj, Memory.read]
      · rename_i hge hne
        by_cases hkj : k = j
        · have haj : a ≠ j := by omega
          simp [Memory.read, hkj, haj]
        · simp [Memory.read, hkj, ih a v j h.2]

theorem Memory.wfFrom_weaken {lo lo' : Nat} (m : Memory) (h : Memory.wfFrom lo m = true) (hlo : lo' ≤ lo) :
    Memory.wfFrom lo' m = true := by
  cases m with
  | nil => rfl
  | cons c m =>
    obtain ⟨k, v⟩ := c
    simp only [Memory.wfFrom, Bool.and_eq_true, decide_eq_true_eq] at h ⊢
    exact ⟨⟨⟨by omega, h.1.1.2⟩, h.1.2⟩, h.2⟩

theorem Memory.wfFrom_consCell {lo a : Nat} (v : Byte) (m : Memory) (hlo : lo ≤ a) (ha : a < 16)
    (h : Memory.wfFrom (a + 1) m = true) : Memory.wfFrom lo (Memory.consCell a v m) = true := by
  unfold Memory.consCell
  by_cases hv : v = 0
  · simp only [hv, if_true]; exact Memory.wfFrom_weaken m h (by omega)
  · have hv' : v ≠ 0#8 := hv
    rw [if_neg hv]; simp [hv', Memory.wfFrom, hlo, ha, h]

theorem Memory.wfFrom_write (m : Memory) : ∀ {lo a : Nat} (v : Byte), Memory.wfFrom lo m = true → lo ≤ a → a < 16 →
    Memory.wfFrom lo (Memory.write m a v) = true := by
  induction m with
  | nil => intro lo a v _ hlo ha; exact Memory.wfFrom_consCell v [] hlo ha rfl
  | cons c m ih =>
    obtain ⟨k, x⟩ := c
    intro lo a v h hlo ha
    have hfull := h
    simp only [Memory.wfFrom, Bool.and_eq_true, decide_eq_true_eq] at h
    unfold Memory.write
    split
    · refine Memory.wfFrom_consCell v _ hlo ha ?_
      simp only [Memory.wfFrom, Bool.and_eq_true, decide_eq_true_eq]
      exact ⟨⟨⟨by omega, h.1.1.2⟩, h.1.2⟩, h.2⟩
    · split
      · rename_i _ heq
        subst heq
        exact Memory.wfFrom_consCell v m hlo ha h.2
      · simp only [Memory.wfFrom, Bool.and_eq_true, decide_eq_true_eq]
        exact ⟨h.1, ih v h.2 (by omega) ha⟩

/-- Every write inside the buffer keeps the canonical form. -/
theorem Memory.wf_write {m : Memory} {a : Nat} (v : Byte) (h : Memory.wf m = true) (ha : a < 16) :
    Memory.wf (Memory.write m a v) = true :=
  Memory.wfFrom_write m v h (Nat.zero_le a) ha

/-- Two canonical memories that read alike everywhere are the same list. -/
theorem Memory.ext_of_read (m : Memory) : ∀ {lo : Nat} (m' : Memory), Memory.wfFrom lo m = true →
    Memory.wfFrom lo m' = true → (∀ a, Memory.read m a = Memory.read m' a) → m = m' := by
  induction m with
  | nil =>
    intro lo m' _ h' hr
    cases m' with
    | nil => rfl
    | cons c m' =>
      obtain ⟨k, v⟩ := c
      simp only [Memory.wfFrom, Bool.and_eq_true, decide_eq_true_eq] at h'
      have := hr k
      simp [Memory.read] at this
      simp [← this] at h'
  | cons c m ih =>
    obtain ⟨k, v⟩ := c
    intro lo m' h h' hr
    simp only [Memory.wfFrom, Bool.and_eq_true, decide_eq_true_eq] at h
    have hv : v ≠ 0 := by simpa using h.1.2
    cases m' with
    | nil => exact absurd (hr k) (by simpa [Memory.read] using hv)
    | cons c' m' =>
      obtain ⟨k', v'⟩ := c'
      simp only [Memory.wfFrom, Bool.and_eq_true, decide_eq_true_eq] at h'
      have hv' : v' ≠ 0 := by simpa using h'.1.2
      have hk : k = k' := by
        rcases Nat.lt_trichotomy k k' with hlt | heq | hgt
        · have h1 := hr k
          simp only [Memory.read, if_true, if_neg (show ¬ k' = k by omega)] at h1
          rw [Memory.read_below m' h'.2 (by omega)] at h1
          exact absurd h1 hv
        · exact heq
        · have h1 := hr k'
          simp only [Memory.read, if_true, if_neg (show ¬ k = k' by omega)] at h1
          rw [Memory.read_below m h.2 (by omega)] at h1
          exact absurd h1.symm hv'
      subst hk
      have hvv : v = v' := by simpa [Memory.read] using hr k
      subst hvv
      refine congrArg _ (ih m' h.2 h'.2 fun a => ?_)
      by_cases ha : k = a
      · subst ha
        rw [Memory.read_below m h.2 (by omega), Memory.read_below m' h'.2 (by omega)]
      · simpa [Memory.read, ha] using hr a

end Sys2Proof.Machine
end

