-- ==== Sys2Proof/Laws/PerInstr.lean ====
section
/-! SUPPORT. Statements about every request as syntax, one lemma per constructor of Instr. -/

namespace Sys2Proof.Laws.OpcodeNibble

/-- The opcode of a request in the map of R72. -/
def opcode (i : Instr) : Nat :=
  match i with
  | .send8 _ _ _ => 0x1
  | .fnset => 0x3
  | .dispon => 0x4
  | .dispoff => 0x5
  | .clear => 0x6
  | .entry => 0x7
  | .home => 0x8
  | .setddram _ => 0x9
  | .blon => 0xA
  | .bloff => 0xB
  | .init => 0xC
  | .ldtxt _ _ => 0xD
  | .print => 0xE
  | .status => 0xF

/-- The word of a request carries the request's opcode in bits 15:12 (R70, R72). -/
def Statement (i : Instr) : Prop := (opField (encode i)).toNat = opcode i

theorem send8 (rw rs : Line) (v : Byte) : Statement (.send8 rw rs v) := by
  unfold Statement
  rw [opField_toNat]
  simp only [encode, append_toNat, opcode]
  bv_omega

theorem fnset : Statement .fnset := rfl
theorem dispon : Statement .dispon := rfl
theorem dispoff : Statement .dispoff := rfl
theorem clear : Statement .clear := rfl
theorem entry : Statement .entry := rfl
theorem home : Statement .home := rfl

theorem setddram (addr : BitVec 7) : Statement (.setddram addr) := by
  unfold Statement
  rw [opField_toNat]
  simp only [encode, append_toNat, opcode]
  bv_omega

theorem blon : Statement .blon := rfl
theorem bloff : Statement .bloff := rfl
theorem init : Statement .init := rfl

theorem ldtxt (idx : BitVec 4) (byte : Byte) : Statement (.ldtxt idx byte) := by
  unfold Statement
  rw [opField_toNat]
  simp only [encode, append_toNat, opcode]
  bv_omega

theorem print : Statement .print := rfl
theorem status : Statement .status := rfl

end Sys2Proof.Laws.OpcodeNibble
end

