-- ==== Sys2Proof/Laws/Print.lean ====
section
/-! SUPPORT. PRINT (R181) with no reset asserted: the loop as a list of characters, on each answer of the bus. -/

namespace Sys2Proof.Safety

open Sys2Proof.Machine

/-- The characters the loop sends from index `i` with `n` entries of the buffer left (R181). -/
def charsFrom (text : Memory) : Nat → Nat → List Byte
  | 0, _ => []
  | n + 1, i => if Memory.read text i = 0 then [] else Memory.read text i :: charsFrom text n (i + 1)

theorem takeWhile_range' (text : Memory) (n i : Nat) :
    ((List.range' i n).map (Memory.read text)).takeWhile (fun b => b != 0x00) = charsFrom text n i := by
  induction n generalizing i with
  | zero => rfl
  | succ n ih =>
    simp only [List.range'_succ, List.map_cons, List.takeWhile_cons, charsFrom, ih]
    by_cases h : Memory.read text i = 0 <;> simp [h]

/-- The text PRINT sends is what its loop sends from the start. -/
theorem printedText_eq (s : State) : printedText s = charsFrom s.text s.params.textLen 0 := by
  rw [← takeWhile_range', ← List.range_eq_range']
  rfl

theorem charsFrom_length_le (text : Memory) (n i : Nat) : (charsFrom text n i).length ≤ n := by
  induction n generalizing i with
  | zero => exact Nat.le_refl _
  | succ n ih =>
    simp only [charsFrom]
    split
    · simp
    · simpa using ih (i + 1)

/-- Six writes a character (R181). -/
@[simp] theorem textBytes_length (bl : Bool) (cs : List Byte) : (textBytes bl cs).length = 6 * cs.length := by
  induction cs with
  | nil => rfl
  | cons c cs ih =>
    simp only [textBytes, List.flatMap_cons, List.length_append, transferBytes_length, List.length_cons] at *
    omega

theorem textBytes_cons (bl : Bool) (c : Byte) (cs : List Byte) :
    textBytes bl (c :: cs) = transferBytes bl 1 c ++ textBytes bl cs := List.flatMap_cons ..

/-- The writes past one character's are the next characters'. -/
theorem take_transfer (bl : Bool) (c : Byte) (bs : List Byte) (m : Nat) :
    (transferBytes bl 1 c ++ bs).take (6 + m) = transferBytes bl 1 c ++ bs.take m := by
  rw [← transferBytes_length bl 1 c, List.take_length_add_append]

/-- The latches of characters whose transfers land (R109). -/
theorem landedAll_text_latches (bl : Bool) (cs : List Byte) (s : State) :
    (landedAll (textBytes bl cs) s).latches = s.latches ++ cs.flatMap (transferLatches 1) := by
  induction cs generalizing s with
  | nil => simp [textBytes, landedAll]
  | cons c cs ih => simp [textBytes_cons, landedAll_append, ih]

/-- Every character transferred: OK with the count (R181). -/
theorem printFrom_ok (n i : Nat) {s : State} (h : AllOk (6 * (charsFrom s.text n i).length) s) :
    printFrom n i s = responded .ok (BitVec.ofNat 8 (i + (charsFrom s.text n i).length))
      (landedAll (textBytes s.bl (charsFrom s.text n i)) s) := by
  induction n generalizing i s with
  | zero => exact respond_quiet h.1
  | succ n ih =>
    unfold printFrom
    by_cases hc : Memory.read s.text i = 0
    · simp only [charsFrom, hc, if_true]
      exact respond_quiet h.1
    · simp only [charsFrom, hc, if_false, List.length_cons, Nat.mul_succ] at h ⊢
      rw [Nat.add_comm] at h
      rw [send8_eq_writeAll, writeAll_ok _ (h.mono (Nat.le_add_right _ _)), Flow.finish_go, if_pos rfl,
        ih (i + 1) (s := landedAll (transferBytes s.bl 1 (Memory.read s.text i)) s)
          (by simpa using AllOk.after (transferBytes s.bl 1 (Memory.read s.text i)) h)]
      rw [landedAll_text, landedAll_bl, textBytes_cons, landedAll_append]
      congr 2
      omega

/-- The write number `m` of the loop fails: FAIL with the count of characters fully transferred before it (R181, R203). -/
theorem printFrom_fail (n i : Nat) {m : Nat} {b : Byte} {s : State}
    (hb : (textBytes s.bl (charsFrom s.text n i))[m]? = some b) (h : AnsweredAt m .fail s) :
    printFrom n i s = responded .fail (BitVec.ofNat 8 (i + m / 6))
      (disturb (recordWrite b .fail (landedAll ((textBytes s.bl (charsFrom s.text n i)).take m) s))) := by
  induction n generalizing i m s with
  | zero => simp [charsFrom, textBytes] at hb
  | succ n ih =>
    unfold printFrom
    by_cases hc : Memory.read s.text i = 0
    · simp [charsFrom, hc, textBytes] at hb
    · simp only [charsFrom, hc, if_false, textBytes_cons] at hb ⊢
      rw [send8_eq_writeAll]
      by_cases hm : m < 6
      · rw [List.getElem?_append_left hm] at hb
        rw [writeAll_fail _ hb h, Flow.finish_go, if_neg (by simp), List.take_append_of_le_length (by simp; omega),
          respond_quiet (by simpa using h.1), Nat.div_eq_of_lt hm, Nat.add_zero]
      · obtain ⟨m, rfl⟩ : ∃ m', m = 6 + m' := ⟨m - 6, by omega⟩
        rw [List.getElem?_append_right (by simp), transferBytes_length, Nat.add_sub_cancel_left] at hb
        have h' := AnsweredAt.after (transferBytes s.bl 1 (Memory.read s.text i)) (k := m) h
        rw [writeAll_ok _ (h.allOk.mono (Nat.le_add_right _ _)), Flow.finish_go, if_pos rfl,
          ih (i + 1) (by simpa using hb) h']
        rw [landedAll_text, landedAll_bl, take_transfer, ← landedAll_append]
        congr 2
        omega

/-- The write number `m` of the loop is never answered: the request goes no further (R246). -/
theorem printFrom_never (n i : Nat) {m : Nat} {b : Byte} {s : State}
    (hb : (textBytes s.bl (charsFrom s.text n i))[m]? = some b) (h : AnsweredAt m .never s) :
    printFrom n i s =
      disturb (recordOpenWrite b .unanswered (landedAll ((textBytes s.bl (charsFrom s.text n i)).take m) s)) := by
  induction n generalizing i m s with
  | zero => simp [charsFrom, textBytes] at hb
  | succ n ih =>
    unfold printFrom
    by_cases hc : Memory.read s.text i = 0
    · simp [charsFrom, hc, textBytes] at hb
    · simp only [charsFrom, hc, if_false, textBytes_cons] at hb ⊢
      rw [send8_eq_writeAll]
      by_cases hm : m < 6
      · rw [List.getElem?_append_left hm] at hb
        rw [writeAll_never _ hb h, Flow.finish_stop, List.take_append_of_le_length (by simp; omega)]
      · obtain ⟨m, rfl⟩ : ∃ m', m = 6 + m' := ⟨m - 6, by omega⟩
        rw [List.getElem?_append_right (by simp), transferBytes_length, Nat.add_sub_cancel_left] at hb
        have h' := AnsweredAt.after (transferBytes s.bl 1 (Memory.read s.text i)) (k := m) h
        rw [writeAll_ok _ (h.allOk.mono (Nat.le_add_right _ _)), Flow.finish_go, if_pos rfl,
          ih (i + 1) (by simpa using hb) h']
        rw [landedAll_text, landedAll_bl, take_transfer, ← landedAll_append]

/-- Two buffers that agree up to the first terminator of one make the loop do the same, whatever lies past it (R181). -/
theorem charsFrom_congr {text text' : Memory} {z : Nat} (hz : Memory.read text z = 0)
    (h : ∀ a, a ≤ z → Memory.read text' a = Memory.read text a) (n i : Nat) (hi : i ≤ z) :
    charsFrom text' n i = charsFrom text n i := by
  induction n generalizing i with
  | zero => rfl
  | succ n ih =>
    simp only [charsFrom, h i hi]
    split
    · rfl
    · rename_i hne
      rw [ih (i + 1) (by rcases Nat.lt_or_eq_of_le hi with h' | h' <;> first | omega | (subst h'; contradiction))]

end Sys2Proof.Safety
end

