-- ==== Sys2Proof/Laws/Simulation.lean ====
section
/-! SUPPORT. Two runs side by side. `Flow.Rel P E` says that two flows go on with the same value and states related by
`P`, or both go no further in states related by `E`; `Simulation P E` asks that of the primitives of R10, and its lemmas
give it of the helpers every request is built from. -/

namespace Sys2Proof.Machine

def Flow.Rel {α : Type} (P E : State → State → Prop) : Flow α → Flow α → Prop
  | .go a s, .go b t => a = b ∧ P s t
  | .stop s, .stop t => E s t
  | .go _ _, .stop _ => False
  | .stop _, .go _ _ => False

theorem Flow.Rel.bind {α β : Type} {P E : State → State → Prop} {f g : Flow α} {k l : α → State → Flow β}
    (h : Flow.Rel P E f g) (hk : ∀ a s t, P s t → Flow.Rel P E (k a s) (l a t)) :
    Flow.Rel P E (f.bind k) (g.bind l) := by
  cases f <;> cases g
  · obtain ⟨rfl, h⟩ := h
    exact hk _ _ _ h
  · exact h.elim
  · exact h.elim
  · exact h

theorem Flow.Rel.finish {α : Type} {P E : State → State → Prop} {f g : Flow α} {k l : α → State → State}
    (h : Flow.Rel P E f g) (hk : ∀ a s t, P s t → E (k a s) (l a t)) : E (f.finish k) (g.finish l) := by
  cases f <;> cases g
  · obtain ⟨rfl, h⟩ := h
    exact hk _ _ _ h
  · exact h.elim
  · exact h.elim
  · exact h

end Sys2Proof.Machine

namespace Sys2Proof.Safety

open Sys2Proof.Machine

/-- The primitives do the same in states related by `P`, and end in states related by `E`. -/
structure Simulation (P E : State → State → Prop) : Prop where
  write : ∀ b s t, P s t → Flow.Rel P E (transportWrite b s) (transportWrite b t)
  delay : ∀ d s t, P s t → Flow.Rel P E (delay d s) (delay d t)
  respond : ∀ c d s t, P s t → E (respond c d s) (respond c d t)
  bl : ∀ s t, P s t → t.bl = s.bl

variable {P E : State → State → Prop}

theorem Simulation.writeAll (S : Simulation P E) (bs : List Byte) {s t : State} (h : P s t) :
    Flow.Rel P E (Machine.writeAll bs s) (Machine.writeAll bs t) := by
  induction bs generalizing s t with
  | nil => exact ⟨rfl, h⟩
  | cons b bs ih =>
    refine (S.write b s t h).bind fun r s t h => ?_
    cases r with
    | true => exact ih h
    | false => exact ⟨rfl, h⟩

theorem Simulation.respondResult (S : Simulation P E) {f g : Flow Bool} (h : Flow.Rel P E f g) :
    E (Machine.respondResult f) (Machine.respondResult g) :=
  h.finish fun _ s t h => S.respond _ _ s t h

theorem Simulation.command (S : Simulation P E) (opc : Byte) (d : Nat) {s t : State} (h : P s t) :
    E (Machine.respondResult (cmd opc d s)) (Machine.respondResult (cmd opc d t)) := by
  rw [cmd_eq, cmd_eq, S.bl s t h]
  exact S.respondResult ((S.writeAll _ h).bind fun r s t h => (S.delay d s t h).bind fun _ s t h => ⟨rfl, h⟩)

/-- PRINT from two buffers that send the same characters. -/
theorem Simulation.printFrom (S : Simulation P E) {a b : Memory} (hab : ∀ s t, P s t → s.text = a ∧ t.text = b)
    (n : Nat) : ∀ (i : Nat) {s t : State}, charsFrom b n i = charsFrom a n i → P s t →
      E (Machine.printFrom n i s) (Machine.printFrom n i t) := by
  induction n with
  | zero => intro i s t _ h; exact S.respond _ _ s t h
  | succ n ih =>
    intro i s t hc h
    unfold Machine.printFrom
    rw [(hab s t h).1, (hab s t h).2]
    simp only [charsFrom] at hc
    by_cases ha : Memory.read a i = 0
    · rw [if_pos ha] at hc ⊢
      have hb : Memory.read b i = 0 := by
        by_contra hne
        rw [if_neg hne] at hc
        exact List.cons_ne_nil _ _ hc
      rw [if_pos hb]
      exact S.respond _ _ s t h
    · have hb : Memory.read b i ≠ 0 := by
        intro he
        rw [if_pos he, if_neg ha] at hc
        exact List.cons_ne_nil _ _ hc.symm
      simp only [if_neg ha, if_neg hb, List.cons.injEq] at hc ⊢
      rw [hc.1, send8_eq_writeAll, send8_eq_writeAll, S.bl s t h]
      refine (S.writeAll _ h).finish fun r s t h => ?_
      cases r with
      | true => exact ih (i + 1) hc.2 h
      | false => exact S.respond _ _ s t h

end Sys2Proof.Safety
end

