-- ==== Sys2Proof/Laws/Step.lean ====
section
/-! SUPPORT. Everything a step can do, said once. -/

namespace Sys2Proof.Machine

/-- A step of a BUSY bridge waits or is reset; one of an IDLE bridge is reset, waits, or accepts the word on the port and
runs the request it decodes to, or answers ILLEGAL. -/
theorem step_cases {s t : State} (h : step s = .next t) : ∃ rs,
    (rs.length = s.resets.length ∧
      ((∃ w, s.seq = .busy w ∧ t = { s with resets := rs }) ∨
       (s.seq = .idle ∧ s.requests = [] ∧ t = { s with resets := rs }) ∨
       (∃ w rest i, s.seq = .idle ∧ s.requests = w :: rest ∧ decode w = .ok i ∧
          exec i (takeRequest w rest { s with resets := rs }) = .next t) ∨
       (∃ w rest e, s.seq = .idle ∧ s.requests = w :: rest ∧ decode w = .error e ∧
          t = raiseIllegal (takeRequest w rest { s with resets := rs })))) ∨
    (rs.length + 1 = s.resets.length ∧
      ((∃ w, s.seq = .busy w ∧ t = takeReset (disturb { s with resets := rs })) ∨
       (s.seq = .idle ∧ t = takeReset { s with resets := rs }))) := by
  unfold step at h
  split at h
  · rename_i w hw
    cases h
    unfold waitForAnswer
    obtain ⟨rs, hl, h'⟩ | ⟨rs, hl, h'⟩ := resetTaken_cases s <;> rw [h']
    · exact ⟨rs, .inl ⟨hl, .inl ⟨w, hw, rfl⟩⟩⟩
    · exact ⟨rs, .inr ⟨hl, .inl ⟨w, hw, rfl⟩⟩⟩
  · rename_i hq
    obtain ⟨rs, hl, h'⟩ | ⟨rs, hl, h'⟩ := resetTaken_cases s <;> rw [h'] at h <;> refine ⟨rs, ?_⟩
    · refine .inl ⟨hl, .inr ?_⟩
      simp only at h
      cases hr : s.requests with
      | nil => simp only [hr] at h; cases h; exact .inl ⟨hq, rfl, rfl⟩
      | cons w rest =>
        simp only [hr, execWord] at h
        cases hd : decode w with
        | ok i => simp only [hd] at h; exact .inr (.inl ⟨w, rest, i, hq, rfl, hd, h⟩)
        | error e => simp only [hd] at h; cases h; exact .inr (.inr ⟨w, rest, e, hq, rfl, hd, rfl⟩)
    · cases h; exact .inr ⟨hl, .inr ⟨hq, rfl⟩⟩

/-- A state that a step leaves as it is stays so for any number of steps. -/
theorem run_of_step_fixed {s : State} (h : step s = .next s) (n : Nat) : core.run n s = .next s := by
  induction n with
  | zero => rfl
  | succ n ih =>
    have hs : core.step s = .next s := h
    simp only [Host.Core.run, hs]
    exact ih

end Sys2Proof.Machine

namespace Sys2Proof.Safety

open Sys2Proof.Machine

/-! ### Reading one event more -/

theorem Monitor.read_append (m : Monitor) (es : List Event) (e : Event) :
    m.read (es ++ [e]) = (m.read es).bind fun m => m.next e := by
  induction es generalizing m with
  | nil => simp only [List.nil_append, Monitor.read, Option.bind_some]; cases m.next e <;> rfl
  | cons x es ih =>
    simp only [List.cons_append, Monitor.read]
    cases m.next x with
    | some m' => exact ih m'
    | none => rfl

theorem clockFrom_append (t : Nat) (es : List Timed) (e : Timed) :
    clockFrom t (es ++ [e]) = (clockFrom t es).bind fun t => if timeAllowed t e then some e.stop else none := by
  induction es generalizing t with
  | nil => rfl
  | cons x es ih =>
    simp only [List.cons_append, clockFrom]
    split
    · exact ih x.stop
    · rfl

end Sys2Proof.Safety
end

