-- ==== Sys2Proof/Laws/Words.lean ====
section
/-! SUPPORT. The words of format F0 (R71): the one legal word of an opcode. -/

namespace Sys2Proof.Safety

/-- A format F0 word decodes to the opcode's request only, and only with bits 11:0 zero. -/
theorem decodeF0_ok {i j : Instr} {w : Word} (h : decodeF0 j w = .ok i) : j = i ∧ w.toNat % 4096 = 0 := by
  unfold decodeF0 at h
  split at h
  · rename_i h0
    rw [field_eq_zero] at h0
    cases h
    exact ⟨rfl, by omega⟩
  · cases h

/-- The word of an opcode of format F0 is the only one for its request, and every other word of the opcode is refused. -/
theorem OnlyWord.of_opcode {i : Instr} {w0 : Word} {op : Nat} (h0 : w0.toNat = 4096 * op)
    (hd : ∀ w, (opField w).toNat = op → decode w = decodeF0 i w)
    (hi : ∀ w, decode w = .ok i → (opField w).toNat = op) : OnlyWord w0 i := by
  have e0 : (opField w0).toNat = op := by
    rw [opField_toNat]
    omega
  have d0 : decode w0 = .ok i := by rw [hd _ e0, decodeF0, if_pos ((field_eq_zero _ _ _).mpr (by omega))]
  refine ⟨fun w => ⟨fun h => ?_, fun h => h ▸ d0⟩, fun w h1 h2 => ?_⟩
  · have h3 := hi w h
    rw [hd w h3] at h
    have h4 := (decodeF0_ok h).2
    rw [opField_toNat] at h3
    exact BitVec.eq_of_toNat_eq (by omega)
  · have h3 : (opField w).toNat = op := by rw [h1, e0]
    rw [hd w h3, decodeF0]
    split
    · rename_i h4
      rw [field_eq_zero] at h4
      rw [opField_toNat] at h3
      exact absurd (BitVec.eq_of_toNat_eq (by omega)) h2
    · exact ⟨_, rfl⟩

end Sys2Proof.Safety
end

