-- ==== Sys2Proof/Tests/Slice0.lean ====
section
/-! SUPPORT. The model's own tests: words written out from the formats of R71, the vectors of 95_test_vectors.md (each
named by its id), and for each statement of Certificates/Slice0/Obligations.lean with hypotheses a state and operands
that meet them together (`witness_<statement>`). -/

namespace Sys2Proof.Tests

open Sys2Proof.Machine Sys2Proof.Safety

/-! ### Helpers -/

/-- The state after reset with the next `n` writes answered `ok`. -/
def quiet (n : Nat) : State := { State.reset with answers := List.replicate n .ok }

/-- The state after reset with the next `k` writes answered `ok` and the one after them answered `a`. -/
def answering (k : Nat) (a : BusAnswer) : State := { State.reset with answers := List.replicate k .ok ++ [a] }

/-- The same with the backlight off. -/
def dark (s : State) : State := { s with bl := false }

/-- A bridge whose text buffer holds "AB". -/
def withAB (s : State) : State := { s with text := [⟨0, 0x41⟩, ⟨1, 0x42⟩] }

/-- The state after one step with the word `w` on the host port. -/
def after (w : Word) (s : State) : State :=
  match step { s with requests := [w] } with
  | .next t => t
  | .fault _ => s
  | .refused _ => s

def W (b : Byte) : Event := .write 0x27 b .ok
def Wf (b : Byte) : Event := .write 0x27 b .fail
def D (t : Nat) : Event := .delay t

/-! ### WellFormed: R76 is the one check -/

theorem test_wellFormed_refuses_read : (Instr.send8 1 0 0x41).wellFormed = false := by decide
theorem test_wellFormed_refuses_read_data : (Instr.send8 1 1 0xFF).wellFormed = false := by decide
theorem test_wellFormed_takes_write : (Instr.send8 0 1 0x41).wellFormed = true := by decide

/-! ### Decode: words written out from R71 and R72, opcode, then the fields from bit 11 down -/

theorem test_decode_send8 : decode 0b0001_00_0_1_01000001 = .ok (.send8 0 1 0x41) := by decide
theorem test_decode_send8_instruction : decode 0b0001_00_0_0_00101000 = .ok (.send8 0 0 0x28) := by decide
theorem test_decode_fnset : decode 0b0011_000000000000 = .ok .fnset := by decide
theorem test_decode_dispon : decode 0b0100_000000000000 = .ok .dispon := by decide
theorem test_decode_dispoff : decode 0b0101_000000000000 = .ok .dispoff := by decide
theorem test_decode_clear : decode 0b0110_000000000000 = .ok .clear := by decide
theorem test_decode_entry : decode 0b0111_000000000000 = .ok .entry := by decide
theorem test_decode_home : decode 0b1000_000000000000 = .ok .home := by decide
theorem test_decode_setddram : decode 0b1001_00000_1000000 = .ok (.setddram 0x40) := by decide
theorem test_decode_blon : decode 0b1010_000000000000 = .ok .blon := by decide
theorem test_decode_bloff : decode 0b1011_000000000000 = .ok .bloff := by decide
theorem test_decode_init : decode 0b1100_000000000000 = .ok .init := by decide
theorem test_decode_ldtxt : decode 0b1101_1010_00010111 = .ok (.ldtxt 10 0x17) := by decide
theorem test_decode_print : decode 0b1110_000000000000 = .ok .print := by decide
theorem test_decode_status : decode 0b1111_000000000000 = .ok .status := by decide
theorem test_decode_opcode_0 : decode 0x0000 = .error .reservedOpcode := by decide
theorem test_decode_opcode_2 : decode 0x2ABC = .error .reservedOpcode := by decide
theorem test_decode_send8_bit10 : decode 0x1541 = .error .reservedBits := by decide
theorem test_decode_send8_bit11 : decode 0x1941 = .error .reservedBits := by decide
theorem test_decode_send8_rw : decode 0x1341 = .error .readRequested := by decide
theorem test_decode_setddram_bit7 : decode 0x9080 = .error .reservedBits := by decide
theorem test_decode_setddram_bit11 : decode 0x9800 = .error .reservedBits := by decide
theorem test_decode_init_bit11 : decode 0xC800 = .error .reservedBits := by decide
theorem test_decode_status_low : decode 0xF0FF = .error .reservedBits := by decide
theorem test_decodeTableWord : decodeTableWord 16 0x9040 = some (.setddram 0x40) := by decide
theorem test_decodeTableWord_long : decodeTableWord 16 0x19040 = none := by decide

/-! ### Requests: the vectors of sections 1 and 2, run by a step -/

/-- V-S8-2. -/
theorem test_send8 : (after 0x1141 (quiet 6)).events =
    [.req 0x1141, W 0x4D, W 0x49, W 0x4D, W 0x1D, W 0x19, W 0x1D, .rsp 0x0000] ∧
    (after 0x1141 (quiet 6)).pins = 0x1D := by decide
/-- V-S8-9. -/
theorem test_send8_fails : (after 0x1141 (answering 3 .fail)).events =
    [.req 0x1141, W 0x4D, W 0x49, W 0x4D, Wf 0x1D, .rsp 0x0001] := by decide
/-- V-CMD-10. -/
theorem test_fnset : (after 0x3000 (dark (quiet 6))).events =
    [.req 0x3000, W 0x24, W 0x20, W 0x24, W 0x84, W 0x80, W 0x84, D 37, .rsp 0x0000] := by decide
/-- V-CMD-13. -/
theorem test_fnset_fails : (after 0x3000 (answering 2 .fail)).events =
    [.req 0x3000, W 0x2C, W 0x28, Wf 0x2C, D 37, .rsp 0x0001] := by decide
/-- V-CMD-2. -/
theorem test_dispon : (after 0x4000 (quiet 6)).events =
    [.req 0x4000, W 0x0C, W 0x08, W 0x0C, W 0xCC, W 0xC8, W 0xCC, D 37, .rsp 0x0000] := by decide
/-- V-CMD-3. -/
theorem test_dispoff : (after 0x5000 (quiet 6)).events =
    [.req 0x5000, W 0x0C, W 0x08, W 0x0C, W 0x8C, W 0x88, W 0x8C, D 37, .rsp 0x0000] := by decide
/-- V-CMD-4. -/
theorem test_clear : (after 0x6000 (quiet 6)).events =
    [.req 0x6000, W 0x0C, W 0x08, W 0x0C, W 0x1C, W 0x18, W 0x1C, D 1520, .rsp 0x0000] := by decide
/-- V-CMD-9. -/
theorem test_clear_compat : (after 0x6000 { quiet 6 with params := { Config.hardware with tClearUs := 0 } }).events =
    [.req 0x6000, W 0x0C, W 0x08, W 0x0C, W 0x1C, W 0x18, W 0x1C, .rsp 0x0000] := by decide
/-- V-CMD-5. -/
theorem test_entry : (after 0x7000 (quiet 6)).events =
    [.req 0x7000, W 0x0C, W 0x08, W 0x0C, W 0x6C, W 0x68, W 0x6C, D 37, .rsp 0x0000] := by decide
/-- V-CMD-6. -/
theorem test_home : (after 0x8000 (quiet 6)).events =
    [.req 0x8000, W 0x0C, W 0x08, W 0x0C, W 0x2C, W 0x28, W 0x2C, D 1520, .rsp 0x0000] := by decide
/-- V-SRC-2, with its latches. -/
theorem test_setddram : (after 0x9040 (quiet 6)).events =
    [.req 0x9040, W 0xCC, W 0xC8, W 0xCC, W 0x0C, W 0x08, W 0x0C, D 37, .rsp 0x0000] ∧
    receivedBytes (after 0x9040 (quiet 6)).latches = [(0, 0xC0)] := by decide
/-- R109: the pair of the first two latches is a byte although their register-selects differ, as after a transfer that
failed half way; the third latch is half a byte. -/
theorem test_receivedBytes_off_by_one :
    (receivedBytes [⟨1, 0, 0x4⟩, ⟨0, 0, 0x2⟩, ⟨0, 0, 0x8⟩]).map Prod.snd = [0x42] := by decide
/-- R109: two whole byte transfers, 'A' and then the instruction 0x28. -/
theorem test_receivedBytes_two :
    receivedBytes [⟨1, 0, 0x4⟩, ⟨1, 0, 0x1⟩, ⟨0, 0, 0x2⟩, ⟨0, 0, 0x8⟩] = [(1, 0x41), (0, 0x28)] := by decide
/-- V-CMD-8. -/
theorem test_setddram_top : (after 0x907F (quiet 6)).events =
    [.req 0x907F, W 0xFC, W 0xF8, W 0xFC, W 0xFC, W 0xF8, W 0xFC, D 37, .rsp 0x0000] := by decide
/-- V-BL-1. -/
theorem test_blon : (after 0xA000 (dark (quiet 1))).events = [.req 0xA000, W 0x0C, .rsp 0x0000] ∧
    (after 0xA000 (dark (quiet 1))).bl = true := by decide
/-- V-BL-1 on a bridge whose `SLAVE_ADDR` is 0x3F (R7, R103). -/
theorem test_blon_address :
    (after 0xA000 { dark (quiet 1) with params := { Config.hardware with slaveAddr := 0x3F } }).events =
      [.req 0xA000, .write 0x3F 0x0C .ok, .rsp 0x0000] := by decide
/-- V-BL-3. -/
theorem test_blon_fails : (after 0xA000 (dark (answering 0 .fail))).events = [.req 0xA000, Wf 0x0C, .rsp 0x0001] ∧
    (after 0xA000 (dark (answering 0 .fail))).bl = true := by decide
/-- V-BL-4. -/
theorem test_bloff : (after 0xB000 (quiet 1)).events = [.req 0xB000, W 0x04, .rsp 0x0000] ∧
    (after 0xB000 (quiet 1)).bl = false ∧ (after 0xB000 (quiet 1)).pins = 0x04 := by decide
/-- V-BL-5. -/
theorem test_bloff_fails : (after 0xB000 (answering 0 .fail)).events = [.req 0xB000, Wf 0x04, .rsp 0x0001] ∧
    (after 0xB000 (answering 0 .fail)).bl = false := by decide

set_option maxRecDepth 4000 in
/-- V-INIT-1. -/
theorem test_init : (after 0xC000 (quiet 36)).events =
    [.req 0xC000, D 15000, W 0x3C, W 0x38, W 0x3C, D 4100, W 0x3C, W 0x38, W 0x3C, D 100, W 0x3C, W 0x38, W 0x3C,
      W 0x2C, W 0x28, W 0x2C, W 0x2C, W 0x28, W 0x2C, W 0x8C, W 0x88, W 0x8C, D 37, W 0x0C, W 0x08, W 0x0C, W 0x8C,
      W 0x88, W 0x8C, D 37, W 0x0C, W 0x08, W 0x0C, W 0x1C, W 0x18, W 0x1C, D 1520, W 0x0C, W 0x08, W 0x0C, W 0x6C,
      W 0x68, W 0x6C, D 37, .rsp 0x0000] ∧
    statusByte (after 0xC000 (quiet 36)) = 0x29 := by decide

set_option maxRecDepth 4000 in
/-- V-INIT-9 and its later STATUS: the failure of the 18th write, in the step that would enter state 5. -/
theorem test_init_aborts : (after 0xC000 (answering 17 .fail)).events.drop 20 =
      [W 0x88, Wf 0x8C, D 37, .rsp 0x0001] ∧
    (after 0xF000 (after 0xC000 (answering 17 .fail))).events.getLast? = some (.rsp 0x3400) := by decide

/-- V-TXT-2. -/
theorem test_ldtxt : (after 0xDFFF (quiet 0)).events = [.req 0xDFFF, .rsp 0x0000] ∧
    Memory.read (after 0xDFFF (quiet 0)).text 15 = 0xFF := by decide
/-- A byte of 0x00 stored over another (R180, V-TXT-3): the buffer is again the one of reset. -/
theorem test_ldtxt_zero : (after 0xD000 (after 0xD041 (quiet 0))).text = [] := by decide
/-- V-SRC-5, healthy. -/
theorem test_print : (after 0xE000 (withAB (quiet 12))).events =
    [.req 0xE000, W 0x4D, W 0x49, W 0x4D, W 0x1D, W 0x19, W 0x1D, W 0x4D, W 0x49, W 0x4D, W 0x2D, W 0x29, W 0x2D,
      .rsp 0x0200] := by decide
/-- R181 with `TEXT_LEN` 1: the text is the first character and has no terminator. -/
theorem test_print_textLen :
    (after 0xE000 { withAB (quiet 12) with params := { Config.hardware with textLen := 1 } }).events =
      [.req 0xE000, W 0x4D, W 0x49, W 0x4D, W 0x1D, W 0x19, W 0x1D, .rsp 0x0100] := by decide
/-- V-SRC-5, failure at write 7. -/
theorem test_print_fails : (after 0xE000 (withAB (answering 6 .fail))).events =
    [.req 0xE000, W 0x4D, W 0x49, W 0x4D, W 0x1D, W 0x19, W 0x1D, Wf 0x4D, .rsp 0x0101] := by decide
/-- V-ST-1. -/
theorem test_status : (after 0xF000 (quiet 0)).events = [.req 0xF000, .rsp 0x2000] := by decide
/-- V-ST-2. -/
theorem test_status_dark : (after 0xF000 (dark (quiet 0))).events = [.req 0xF000, .rsp 0x0000] := by decide
/-- V-ILL-6. -/
theorem test_illegal : (after 0xF0FF (quiet 0)).events = [.req 0xF0FF, .rsp 0x0002] := by decide
/-- R246: a write never answered leaves the bridge BUSY with its request. -/
theorem test_hang : (after 0x1141 (answering 1 .never)).seq = .busy 0x1141 := by decide

/-! ### The assembler -/

theorem test_assemble_send8 : assembleText "  SEND8 1, 'A' ; data" = some [0x1141] := by decide
theorem test_assemble_ldstr : assembleText "LDSTR \"OK\"" = some [0xD04F, 0xD14B, 0xD200] := by decide
/-- A comma and a semicolon inside quotes are characters. -/
theorem test_assemble_quoted : assembleText "LDSTR \",;\"" = some [0xD02C, 0xD13B, 0xD200] := by decide
/-- The last character with an 8-bit code, and the first without one (log entry 21). -/
theorem test_charCode_bounds : charCode (Char.ofNat 0xFF) = some 0xFF ∧ charCode (Char.ofNat 0x100) = none := by decide
theorem test_assemble_row1 : assembleText "ROW1 ; SETDDRAM 0x40" = some [0x9040] := by decide
theorem test_assemble_word : assembleText ".word 0x0000" = some [0x0000] := by decide
theorem test_assemble_out_of_range : assembleText "SETDDRAM 128" = none := by decide

/-! ### Witnesses: the hypotheses of each statement met together -/

theorem quiet_allOk (n : Nat) : AllOk n (quiet n) := ⟨rfl, by simp [quiet]⟩

theorem answering_answeredAt (k : Nat) (a : BusAnswer) : AnsweredAt k a (answering k a) := ⟨rfl, by simp [answering]⟩

theorem witness_DecodeInvertsEncode : (Instr.send8 0 1 0x41).wellFormed = true := by decide

theorem witness_LegalWordIsItsRequestsWord : decode 0x907F = .ok (.setddram 0x7F) := by decide

/-- One word for each cause of the right side, at the edges of the reserved fields, and no cause for the words beside
them. -/
theorem witness_IllegalWordsHaveOneOfThreeCauses :
    decode 0x0FFF = .error .reservedOpcode ∧ decode 0x2000 = .error .reservedOpcode ∧
    decode 0x1400 = .error .reservedBits ∧ decode 0x1800 = .error .reservedBits ∧
    decode 0x9080 = .error .reservedBits ∧ decode 0xF001 = .error .reservedBits ∧
    decode 0x1200 = .error .readRequested ∧ legal 0x11FF = true ∧ legal 0x907F = true ∧ legal 0xDFFF = true := by decide

theorem witness_AssemblerSpellsOnlyLegalWords :
    (∀ n, AsmLine.puts 1 [0x48, 0x49] ≠ .word n) ∧
      assemble (.puts 1 [0x48, 0x49]) = some [0x9040, 0xD048, 0xD149, 0xD200, 0xE000] := ⟨by simp, by decide⟩

/-- A bridge with two requests on the port, and the first decodes. -/
theorem witness_StepRunsTheAcceptedRequest : ∃ s : State, s.seq = .idle ∧ s.resets = [] ∧
    s.requests = [0x1141, 0xF000] ∧ decode 0x1141 = .ok (.send8 0 1 0x41) :=
  ⟨{ quiet 6 with requests := [0x1141, 0xF000] }, by decide⟩

theorem witness_IllegalWordIsOnlyAnswered : ∃ s : State, s.seq = .idle ∧ s.resets = [] ∧
    s.requests = [0x1341, 0xF000] ∧ legal 0x1341 = false :=
  ⟨{ quiet 0 with requests := [0x1341, 0xF000] }, by decide⟩

theorem witness_IdleBridgeWaits :
    (dark (quiet 3)).seq = .idle ∧ (dark (quiet 3)).requests = [] ∧ (dark (quiet 3)).resets = [] := by decide

theorem witness_HungBridgeStaysBusy :
    (after 0x1141 (answering 1 .never)).seq = .busy 0x1141 ∧ (after 0x1141 (answering 1 .never)).resets = [] := by decide

theorem witness_ResetOfAnIdleBridge : ∃ s : State, s.seq = .idle ∧ s.resets = 0 :: [3] :=
  ⟨{ withAB (dark (quiet 0)) with resets := [0, 3] }, by decide⟩

theorem witness_ResetEndsAHang : ∃ s : State, s.seq = .busy 0x1141 ∧ s.resets = 0 :: [] :=
  ⟨{ after 0x1141 (answering 1 .never) with resets := [0] }, by decide⟩

/-- A reset that takes effect during the delay of a command, after its six writes. -/
theorem witness_ResetAbandonsTheRequest : ∃ t, exec .fnset { quiet 6 with resets := [12] } = .next t ∧
    t.resets.length < ({ quiet 6 with resets := [12] } : State).resets.length ∧ t.events.length = 7 :=
  ⟨_, rfl, by decide⟩

theorem witness_TransportWriteOnEachAnswer : AnsweredAt 0 .ok (answering 0 .ok) ∧
    AnsweredAt 0 .fail (answering 0 .fail) ∧ AnsweredAt 0 .never (answering 0 .never) := by
  simp only [answering_answeredAt, and_self]

/-- The greatest frame of the framer, with the writes of one strobe answered `ok`. -/
theorem witness_StrobeWritesSetClearSet : (0xF3 : Byte).extractLsb' 2 2 = 0 ∧ AllOk 3 (quiet 3) :=
  ⟨by decide, quiet_allOk 3⟩

theorem witness_StrobeStopsAtAFailedWrite : AllOk 3 (quiet 3) ∧ (0 < 3 ∧ AnsweredAt 0 .fail (answering 0 .fail)) ∧
    (2 < 3 ∧ AnsweredAt 2 .fail (answering 2 .fail)) := by
  simp only [quiet_allOk, answering_answeredAt]; decide

theorem witness_SuccessfulStrobeLeavesEnableSet : ∃ t, strobe 0x30 (quiet 3) = .go true t := ⟨_, rfl⟩

theorem witness_Send8StrobesHighThenLow : AllOk 6 (quiet 6) ∧ (0 < 6 ∧ AnsweredAt 0 .fail (answering 0 .fail)) ∧
    (5 < 6 ∧ AnsweredAt 5 .fail (answering 5 .fail)) := by
  simp only [quiet_allOk, answering_answeredAt]; decide

theorem witness_ForcedNibbleIsOneStrobe : AllOk 3 (quiet 3) ∧ (2 < 3 ∧ AnsweredAt 2 .fail (answering 2 .fail)) := by
  simp only [quiet_allOk, answering_answeredAt]; decide

theorem witness_CommandHelperWaitsAfterAFailureToo : AllOk 6 (quiet 6) ∧
    (5 < 6 ∧ AnsweredAt 5 .fail (answering 5 .fail)) := by
  simp only [quiet_allOk, answering_answeredAt]; decide

theorem witness_Send8Completes : AllOk 6 (dark (quiet 6)) := ⟨rfl, rfl⟩

theorem witness_Send8FailsAtTheFailedWrite : 5 < 6 ∧ AnsweredAt 5 .fail (dark (answering 5 .fail)) :=
  ⟨by decide, rfl, rfl⟩

theorem witness_Send8RefusesToRead : (quiet 0).resets = [] ∧ opField 0x1341 = 0x1 ∧
    (0x1341 : Word).extractLsb' 9 1 = 1 := by decide

theorem witness_ByteTransferReassembles : AllOk 6 (quiet 6) := quiet_allOk 6

/-- The first and the last pair of five latches, the first of two register-selects. -/
theorem witness_EveryTwoLatchesAreOneByte :
    let ls : List Latch := [⟨1, 0, 0x4⟩, ⟨0, 0, 0x2⟩, ⟨0, 0, 0x8⟩, ⟨0, 0, 0x0⟩, ⟨0, 0, 0x1⟩]
    (ls[2 * 0]? = some ⟨1, 0, 0x4⟩ ∧ ls[2 * 0 + 1]? = some ⟨0, 0, 0x2⟩) ∧
      ls[2 * 1]? = some ⟨0, 0, 0x8⟩ ∧ ls[2 * 1 + 1]? = some ⟨0, 0, 0x0⟩ := by decide

/-- A command of each shape of the table: a fixed byte, the configured delay, an operand. -/
theorem witness_CommandsComplete : command (quiet 6).params .fnset = some (0x28, 37) ∧
    command (quiet 6).params .clear = some (0x01, 1520) ∧
    command (quiet 6).params (.setddram 0x7F) = some (0xFF, 37) ∧ AllOk 6 (quiet 6) :=
  ⟨by decide, by decide, by decide, quiet_allOk 6⟩

theorem witness_CommandsFailAfterTheirDelay : command (answering 5 .fail).params .clear = some (0x01, 1520) ∧ 5 < 6 ∧
    AnsweredAt 5 .fail (answering 5 .fail) := ⟨by decide, by decide, answering_answeredAt 5 .fail⟩

theorem witness_ClearWaitsTheConfiguredTime : AllOk 6 (quiet 6) ∧
  AllOk 6 { quiet 6 with params := { Config.hardware with tClearUs := 0 } } :=
  ⟨quiet_allOk 6, rfl, rfl⟩

theorem witness_SetddramSendsEveryAddress : (opField 0x9080 = 0x9 ∧ (0x9080 : Word).extractLsb' 7 5 ≠ 0) ∧
    AllOk 6 (quiet 6) := ⟨by decide, quiet_allOk 6⟩

theorem witness_CommandResponseWaitsItsDelay : command (quiet 6).params .home = some (0x02, 1520) ∧
    AllOk 6 (quiet 6) := ⟨by decide, quiet_allOk 6⟩

theorem witness_BacklightOnSetsFlagAndWrites : AllOk 1 (dark (quiet 1)) ∧
    AnsweredAt 0 .fail (dark (answering 0 .fail)) := ⟨⟨rfl, rfl⟩, rfl, rfl⟩

theorem witness_BacklightOffClearsFlagAndWrites : AllOk 1 (quiet 1) ∧ AnsweredAt 0 .fail (answering 0 .fail) :=
  ⟨quiet_allOk 1, answering_answeredAt 0 .fail⟩

theorem witness_InitCompletes : AllOk 36 (quiet 36) := quiet_allOk 36

/-- The first and the last write that INIT can fail at: write 0 of row 0 and write 5 of row 7, the 36th. -/
theorem witness_InitAbortsAtTheFailedStep :
    (∃ row, (initRows true Config.hardware)[0]? = some row ∧ 0 < row.bytes.length ∧
      AnsweredAt ((((initRows true Config.hardware).take 0).flatMap InitRow.bytes).length + 0) .fail (answering 0 .fail)) ∧
    ∃ row, (initRows true Config.hardware)[7]? = some row ∧ 5 < row.bytes.length ∧
      AnsweredAt ((((initRows true Config.hardware).take 7).flatMap InitRow.bytes).length + 5) .fail (answering 35 .fail) :=
  ⟨⟨_, rfl, by decide, answering_answeredAt 0 .fail⟩, _, rfl, by decide, answering_answeredAt 35 .fail⟩

theorem witness_LdtxtStoresOneByte : (withAB (quiet 0)).resets = [] ∧ Memory.wf (withAB (quiet 0)).text = true := by
  decide

/-- "AB" with every write answered `ok`, and with the last write of 'B' answered `fail`. -/
theorem witness_PrintSendsTheTextAndAnswersTheCount : printedText (withAB (quiet 12)) = [0x41, 0x42] ∧
    AllOk (6 * (printedText (withAB (quiet 12))).length) (withAB (quiet 12)) ∧
    (11 < 6 * (printedText (withAB (answering 11 .fail))).length ∧
      AnsweredAt 11 .fail (withAB (answering 11 .fail))) :=
  ⟨by decide, ⟨rfl, by decide⟩, by decide, rfl, rfl⟩

/-- The opcode's words beside the one legal word, for a statement that says which word is a request's. -/
theorem witness_OnlyWord : (opField 0xA001 = opField 0xA000 ∧ (0xA001 : Word) ≠ 0xA000) ∧ opField 0xD000 = 0xD := by
  decide

/-- "AB", and "AB" with another byte past its terminator. -/
theorem witness_PrintReadsNothingPastTheTerminator :
    (Memory.read (withAB (quiet 12)).text 2 = 0x00 ∧
      ∀ a, a ≤ 2 → Memory.read [⟨0, 0x41⟩, ⟨1, 0x42⟩, ⟨3, 0x43⟩] a = Memory.read (withAB (quiet 12)).text a) ∧
    ∃ t, exec .print (withAB (quiet 12)) = .next t ∧ t.resets.length = (withAB (quiet 12)).resets.length :=
  ⟨by decide, _, rfl, by decide⟩

theorem witness_StatusAnswersTheStatusByte : (dark (quiet 0)).resets = [] := by decide

theorem witness_OnlyInitWritesInitState : Instr.home ≠ .init ∧ ∃ t, exec .home (quiet 6) = .next t ∧
    t.resets.length = (quiet 6).resets.length := ⟨by decide, _, rfl, by decide⟩

theorem witness_OnlyBacklightRequestsWriteBL : Instr.home ≠ .blon ∧ Instr.home ≠ .bloff ∧
    ∃ t, exec .home (quiet 6) = .next t ∧ t.resets.length = (quiet 6).resets.length :=
  ⟨by decide, by decide, _, rfl, by decide⟩

theorem witness_OnlyLdtxtWritesText : (∀ idx byte, Instr.print ≠ .ldtxt idx byte) ∧
    ∃ t, exec .print (withAB (quiet 12)) = .next t ∧ t.resets.length = (withAB (quiet 12)).resets.length :=
  ⟨by simp, _, rfl, by decide⟩

theorem witness_LdtxtAndStatusCannotFail : (∃ t, exec .status (answering 0 .fail) = .next t) ∧
    ∃ t, exec (.ldtxt 15 0xFF) (answering 0 .fail) = .next t := ⟨⟨_, rfl⟩, _, rfl⟩

theorem witness_EveryRequestMakesItsWrites : Instr.init.wellFormed = true ∧
    AllOk (requestBytes (quiet 36) .init).length (quiet 36) ∧
    AllOk (requestBytes (withAB (quiet 12)) .print).length (withAB (quiet 12)) :=
  ⟨by decide, ⟨rfl, by decide⟩, rfl, by decide⟩

theorem witness_FailedWriteIsTheLastWrite : Instr.init.wellFormed = true ∧
    35 < (requestBytes (answering 35 .fail) .init).length ∧ AnsweredAt 35 .fail (answering 35 .fail) :=
  ⟨by decide, by decide, answering_answeredAt 35 .fail⟩

theorem witness_UnansweredWriteHangsTheBridge : ∃ s : State, Instr.init.wellFormed = true ∧ s.seq = .busy 0xC000 ∧
    35 < (requestBytes s .init).length ∧ AnsweredAt 35 .never s :=
  ⟨{ answering 35 .never with seq := .busy 0xC000 }, by decide, rfl, by decide, rfl, rfl⟩

theorem witness_TimeIsNeverRead : ∃ t, exec .home (quiet 6) = .next t := ⟨_, rfl⟩

/-- A step of a bridge with other parameters than the hardware's. -/
theorem witness_NoStepChangesTheParameters : ∃ s t : State, s.params ≠ Config.hardware ∧ s.requests = [0x6000] ∧
    step s = .next t :=
  ⟨{ quiet 6 with params := { Config.hardware with tClearUs := 0 }, requests := [0x6000] }, _, by decide, rfl, rfl⟩

/-- One step that runs a request, from a state that meets the three invariants. -/
theorem witness_StepKeepsInvariants : ∃ s t : State, Safety.Inv s ∧ Follows s ∧ OnTime s ∧ s.requests = [0x1141] ∧
    step s = .next t := ⟨{ quiet 6 with requests := [0x1141] }, _, by unfold Safety.Inv; decide, rfl, rfl, rfl, rfl⟩

/-- A BUSY state meets them as well. -/
theorem witness_StepKeepsInvariants_busy : Safety.Inv (after 0x1141 (answering 1 .never)) ∧
    Follows (after 0x1141 (answering 1 .never)) ∧ (after 0x1141 (answering 1 .never)).seq = .busy 0x1141 :=
  ⟨by unfold Safety.Inv; decide, by unfold Follows; decide, by decide⟩

end Sys2Proof.Tests
end

/-! The scope statements (00_scope.md): the parameters of R7 under a step, and the state right after reset. -/

namespace Sys2Proof.Safety

open Sys2Proof.Machine

/-! ### The parameters -/

/-- The parameters of `s` are `p` (R7). -/
def HasParams (p : Config.Params) (s : State) : Prop := s.params = p

/-- No part of a request writes a parameter, whether or not a write has failed, so `HasParams p` follows every request
from its acceptance to its end. -/
theorem closed_hasParams (i : Instr) (p : Config.Params) : Closed i (HasParams p) (HasParams p) (HasParams p) where
  ok b _ _ _ _ h := (landed_params b _).trans h
  fail b _ _ _ _ h := (disturb_params _).trans ((recordWrite_params b .fail _).trans h)
  never b _ _ _ _ h := (disturb_params _).trans ((recordOpenWrite_params b .unanswered _).trans h)
  reset _ _ _ h := (takeReset_params _).trans (or_self_iff.mp h)
  cut b _ _ _ _ h := (takeReset_params _).trans ((disturb_params _).trans ((recordOpenWrite_params b .cut _).trans h))
  waitOk d _ _ _ _ h := (waited_params d _).trans h
  waitFail d _ _ _ _ h := (waited_params d _).trans h
  answerOk d _ _ _ _ _ h := (responded_params .ok d _).trans h
  answerFail d _ _ _ _ h := (responded_params .fail d _).trans h
  answerIllegal _ _ _ _ h := (responded_params .illegal 0 _).trans h
  initStart _ _ h := (beginInit_params _).trans h
  initEnter _ k _ _ _ h := (enterInit_params k _).trans h
  initAbort _ _ _ h := (abortInit_params _).trans h
  text _ idx byte _ h := (storeText_params idx byte _).trans h

/-- A request that decodes leaves the parameters as they were. -/
theorem exec_params {i : Instr} {s t : State} (h : exec i s = .next t) : t.params = s.params :=
  (closed_hasParams i s.params).exec (setBacklight_params _ s) h

/-- The answer to a word that does not decode leaves the parameters as they were, reset or not. -/
theorem raiseIllegal_params (s : State) : (raiseIllegal s).params = s.params :=
  respond_sat (E := HasParams s.params) (fun _ _ => responded_params .illegal 0 _) fun _ _ => takeReset_params _

/-- Settles O50: in each of the six things a step can do, the parameters stay; in the one that runs a request, because
they follow every request through (`closed_hasParams`). -/
theorem noStepChangesTheParameters : Obligations.NoStepChangesTheParameters := by
  intro s t h
  obtain ⟨rs, ⟨-, hwait | hquiet | hrun | hillegal⟩ | ⟨-, hreset | hreset⟩⟩ := step_cases h
  · obtain ⟨_, _, rfl⟩ := hwait
    rfl
  · obtain ⟨_, _, rfl⟩ := hquiet
    rfl
  · obtain ⟨w, rest, i, _, _, _, hexec⟩ := hrun
    exact (exec_params hexec).trans (takeRequest_params w rest _)
  · obtain ⟨w, rest, _, _, _, _, rfl⟩ := hillegal
    exact (raiseIllegal_params _).trans (takeRequest_params w rest _)
  · obtain ⟨_, _, rfl⟩ := hreset
    exact (takeReset_params _).trans (disturb_params _)
  · obtain ⟨_, rfl⟩ := hreset
    exact takeReset_params _

/-! ### The state after reset -/

/-- With no reset asserted and no word on the host port, an IDLE bridge stays as it is (R217). -/
theorem step_idle_quiet {s : State} (hq : s.seq = .idle) (hr : s.resets = []) (hw : s.requests = []) :
    step s = .next s := by
  simp only [step, hq, resetTaken_none hr, hw]

/-- Settles O16: each register's value is the field of `State.reset`, the empty text buffer reads 0x00 everywhere
(R33), and the state waits because nothing is presented to it. -/
theorem stateAfterReset : Obligations.StateAfterReset := by
  have htext : ∀ a, Memory.read State.reset.text a = 0x00 := Memory.read_nil
  have hstatus : statusByte State.reset = 0x20 := by decide
  have hstep : step State.reset = .next State.reset := step_idle_quiet rfl rfl rfl
  exact ⟨rfl, rfl, rfl, htext, rfl, rfl, hstatus, rfl, rfl, rfl, hstep⟩

end Sys2Proof.Safety

/-! The state statements (10_state.md): the structural invariant, the protocol, which requests write which register, and
the step at the host port and at the reset input. -/

namespace Sys2Proof.Safety

open Sys2Proof.Machine

/-! ### Invariants of a step -/

/-- A property of states that an opportunity for the reset input, the disturbance of a write in flight and a reset keep,
and that every accepted word leaves true when its request has ended, is kept by every step. -/
theorem step_keeps {I : State → Prop} (hinput : ∀ s rs, I s → I { s with resets := rs })
    (hdisturb : ∀ s, I s → I (disturb s)) (hreset : ∀ s, I s → I (takeReset s))
    (hrun : ∀ s t w rest i, s.seq = .idle → decode w = .ok i → I s → exec i (takeRequest w rest s) = .next t → I t)
    (hillegal : ∀ s w rest e, s.seq = .idle → decode w = .error e → I s → I (raiseIllegal (takeRequest w rest s)))
    {s t : State} (hs : I s) (h : step s = .next t) : I t := by
  obtain ⟨rs, ⟨-, hwait | hquiet | haccept | hrefuse⟩ | ⟨-, hhung | hidle⟩⟩ := step_cases h
  · obtain ⟨_, _, rfl⟩ := hwait
    exact hinput s rs hs
  · obtain ⟨_, _, rfl⟩ := hquiet
    exact hinput s rs hs
  · obtain ⟨w, rest, i, hq, _, hd, hexec⟩ := haccept
    exact hrun { s with resets := rs } t w rest i hq hd (hinput s rs hs) hexec
  · obtain ⟨w, rest, e, hq, _, hd, rfl⟩ := hrefuse
    exact hillegal { s with resets := rs } w rest e hq hd (hinput s rs hs)
  · obtain ⟨_, _, rfl⟩ := hhung
    exact hreset _ (hdisturb _ (hinput s rs hs))
  · obtain ⟨_, rfl⟩ := hidle
    exact hreset _ (hinput s rs hs)

/-! ### The structural invariant -/

/-- The structural invariant reads four fields, and the delay timer may also have become idle. -/
theorem Inv.congr {s t : State} (h : Inv s) (htext : t.text = s.text) (hstate : t.initState = s.initState)
    (herr : t.initErr = s.initErr) (htimer : t.timer = s.timer ∨ t.timer = none) : Inv t := by
  obtain ⟨hwf, hle, habort, hidle⟩ := h
  refine ⟨htext ▸ hwf, hstate ▸ hle, ?_, htimer.elim (·.trans hidle) id⟩
  rw [herr, hstate]
  exact habort

/-- Reset gives the structural invariant from any state (R230). -/
theorem inv_takeReset (s : State) : Inv (takeReset s) := ⟨rfl, by simp, by simp, rfl⟩

/-- The structural invariant follows every request from its acceptance to its end, failed writes included: INIT enters a
state only with `INIT_ERR` clear and sets `INIT_ERR` only at a state of at most 7, and an index of LDTXT is below 16. -/
theorem closed_inv (i : Instr) : Closed i Inv Inv Inv where
  ok b _ _ _ _ h := h.congr (landed_text b _) (landed_initState b _) (landed_initErr b _) (.inl (landed_timer b _))
  fail _ _ _ _ _ h := h.congr rfl rfl rfl (.inl rfl)
  never _ _ _ _ _ h := h.congr rfl rfl rfl (.inl rfl)
  reset _ _ _ _ := inv_takeReset _
  cut _ _ _ _ _ _ := inv_takeReset _
  waitOk d _ _ _ _ h := h.congr rfl rfl rfl (.inr (waited_timer d _))
  waitFail d _ _ _ _ h := h.congr rfl rfl rfl (.inr (waited_timer d _))
  answerOk _ _ _ _ _ _ h := h.congr rfl rfl rfl (.inl rfl)
  answerFail _ _ _ _ _ h := h.congr rfl rfl rfl (.inl rfl)
  answerIllegal _ _ _ _ h := h.congr rfl rfl rfl (.inl rfl)
  initStart _ _ := fun ⟨hwf, _, _, hidle⟩ => ⟨hwf, by simp, by simp, hidle⟩
  initEnter s k _ hk herr := fun ⟨hwf, _, _, hidle⟩ => ⟨hwf, hk, by simp [herr], hidle⟩
  initAbort _ _ hle := fun ⟨hwf, hstate, _, hidle⟩ => ⟨hwf, hstate, fun _ => hle, hidle⟩
  text _ idx byte _ := fun ⟨hwf, hrest⟩ => ⟨Memory.wf_write byte hwf idx.isLt, hrest⟩

/-- The ILLEGAL answer keeps the structural invariant: it is one response, or a reset before it. -/
theorem inv_raiseIllegal {s : State} (h : Inv s) : Inv (raiseIllegal s) :=
  respond_sat (fun _ _ => h.congr rfl rfl rfl (.inl rfl)) fun _ _ => inv_takeReset _

/-- Settles O51: a request keeps the invariant from its acceptance to its end (`closed_inv`), and outside a request a
step changes only the reset input or takes a reset. -/
theorem stepKeepsStructure : Obligations.StepKeepsStructure := by
  intro s t hs h
  refine step_keeps (I := Inv) ?_ ?_ (fun s _ => inv_takeReset s) ?_ ?_ hs h
  · exact fun s rs hs => hs.congr rfl rfl rfl (.inl rfl)
  · exact fun s hs => hs.congr rfl rfl rfl (.inl rfl)
  · intro s t w rest i _ _ hs hexec
    exact (closed_inv i).exec (s := takeRequest w rest s) (hs.congr rfl rfl rfl (.inl rfl)) hexec
  · exact fun s w rest _ _ _ hs => inv_raiseIllegal (hs.congr rfl rfl rfl (.inl rfl))

end Sys2Proof.Safety

/-! The words the bridge accepts: a word decodes exactly when R73 calls it legal, and then it is its request's word. -/

namespace Sys2Proof

/-! ### Each format of R71, from the word to the request -/

theorem decodeFS8_spells {i : Instr} {w : Word} (hop : (opField w).toNat = 0x1) (h : decodeFS8 w = .ok i) :
    i.wellFormed = true ∧ encode i = w := by
  rw [opField_toNat] at hop
  simp only [decodeFS8, field_eq_zero] at h
  split at h
  · split at h
    · cases h
      refine ⟨rfl, BitVec.eq_of_toNat_eq ?_⟩
      simp only [encode, append_toNat, field_toNat, BitVec.ofNat_eq_ofNat, BitVec.toNat_ofNat]
      omega
    · cases h
  · cases h

theorem decodeFDD_spells {i : Instr} {w : Word} (hop : (opField w).toNat = 0x9) (h : decodeFDD w = .ok i) :
    i.wellFormed = true ∧ encode i = w := by
  rw [opField_toNat] at hop
  simp only [decodeFDD, field_eq_zero] at h
  split at h
  · cases h
    refine ⟨rfl, BitVec.eq_of_toNat_eq ?_⟩
    simp only [encode, append_toNat, field_toNat, BitVec.toNat_ofNat]
    omega
  · cases h

theorem decodeFLT_spells {i : Instr} {w : Word} (hop : (opField w).toNat = 0xD) (h : decodeFLT w = .ok i) :
    i.wellFormed = true ∧ encode i = w := by
  rw [opField_toNat] at hop
  cases h
  refine ⟨rfl, BitVec.eq_of_toNat_eq ?_⟩
  simp only [encode, append_toNat, field_toNat, BitVec.toNat_ofNat]
  omega

theorem decodeF0_spells {i j : Instr} {w : Word} {op : Nat} (hop : (opField w).toNat = op) (hwf : j.wellFormed = true)
    (henc : (encode j).toNat = 4096 * op) (h : decodeF0 j w = .ok i) : i.wellFormed = true ∧ encode i = w := by
  obtain ⟨rfl, hlow⟩ := Safety.decodeF0_ok h
  rw [opField_toNat] at hop
  exact ⟨hwf, BitVec.eq_of_toNat_eq (by omega)⟩

/-- A word that decodes is the word of its request, whose operands are legal (R73, R77). -/
theorem decode_spells {i : Instr} {w : Word} (h : decode w = .ok i) : i.wellFormed = true ∧ encode i = w := by
  unfold decode at h
  split at h
  case h_1 hop => exact decodeFS8_spells hop h
  case h_8 hop => exact decodeFDD_spells hop h
  case h_12 hop => exact decodeFLT_spells hop h
  case h_15 => cases h
  all_goals
    rename_i hop
    exact decodeF0_spells hop rfl rfl h

/-- Of a word that decodes, being the word of `j` and being decoded to `j` are the same. -/
theorem eq_encode_iff {i j : Instr} {w : Word} (hj : decode (encode j) = .ok j) (h : decode w = .ok i) :
    w = encode j ↔ i = j := by
  constructor
  · rintro rfl
    exact Except.ok.inj (h.symm.trans hj)
  · rintro rfl
    exact (decode_spells h).2.symm

/-! ### Legality -/

theorem decodeF0_decodes_iff (j : Instr) (w : Word) : (∃ i, decodeF0 j w = .ok i) ↔ w.extractLsb' 0 12 = 0 := by
  by_cases h : w.extractLsb' 0 12 = 0#12 <;> simp [decodeF0, h]

/-- A word decodes exactly when the legality test of R73 holds. -/
theorem decodes_iff_legal (w : Word) : (∃ i, decode w = .ok i) ↔ legal w = true := by
  have hlegal : ∀ op, (opField w).toNat = op → (w.extractLsb' 12 4).toNat = op := fun _ h => h
  unfold decode
  split
  case h_1 hop =>
    by_cases hres : w.extractLsb' 10 2 = 0#2 <;> by_cases hrw : w.extractLsb' 9 1 = 0#1 <;>
      simp [legal, hlegal _ hop, decodeFS8, hres, hrw]
  case h_8 hop =>
    by_cases hres : w.extractLsb' 7 5 = 0#5 <;> simp [legal, hlegal _ hop, decodeFDD, hres]
  case h_12 hop => simp [legal, hlegal _ hop, decodeFLT]
  case h_15 =>
    simp only [imp_false] at *
    have hlt := (opField w).isLt
    have hop : (opField w).toNat = 0x0 ∨ (opField w).toNat = 0x2 := by omega
    rcases hop with hop | hop <;> simp [legal, hlegal _ hop]
  all_goals
    rename_i hop
    rw [decodeF0_decodes_iff]
    simp [legal, hlegal _ hop]

theorem legal_of_decode {i : Instr} {w : Word} (h : decode w = .ok i) : legal w = true :=
  (decodes_iff_legal w).mp ⟨i, h⟩

theorem not_legal_of_decode {e : Illegal} {w : Word} (h : decode w = .error e) : legal w = false := by
  refine Bool.eq_false_iff.mpr fun hl => ?_
  obtain ⟨i, hi⟩ := (decodes_iff_legal w).mpr hl
  cases h.symm.trans hi

end Sys2Proof

namespace Sys2Proof.Safety

open Sys2Proof.Machine

/-! ### Responses the protocol allows -/

theorem responseWord_code (c : Code) (d : Byte) : (responseWord c d).extractLsb' 0 8 = c.bits.setWidth 8 := by
  refine BitVec.eq_of_toNat_eq ?_
  rw [field_toNat, responseWord, append_toNat, append_toNat]
  cases c <;> simp [Code.bits] <;> omega

theorem responseWord_data (c : Code) (d : Byte) : (responseWord c d).extractLsb' 8 8 = d := by
  refine BitVec.eq_of_toNat_eq ?_
  rw [field_toNat, responseWord, append_toNat, append_toNat]
  cases c <;> simp [Code.bits] <;> omega

/-- Bits 7:6 of the data, which are 0 in a status byte (R39), are bits 15:14 of the response word. -/
theorem responseWord_dataTop (c : Code) (d : Byte) : (responseWord c d).extractLsb' 14 2 = d.extractLsb' 6 2 := by
  refine BitVec.eq_of_toNat_eq ?_
  rw [field_toNat, field_toNat, responseWord, append_toNat, append_toNat]
  cases c <;> simp [Code.bits] <;> omega

theorem statusByte_top (s : State) : (statusByte s).extractLsb' 6 2 = 0 := by
  refine BitVec.eq_of_toNat_eq ?_
  have hstate := s.initState.isLt
  rw [field_toNat, statusByte, append_toNat, append_toNat, append_toNat]
  cases s.bl <;> cases s.initErr <;> simp <;> omega

/-- The data of R81: 0, a count of at most 16 for PRINT, or for STATUS a byte that begins with two zeros. -/
theorem dataAllowed_responseWord {i : Instr} {w : Word} {d : Byte} (hi : decode w = .ok i) (c : Code)
    (hd : d = 0 ∨ (i = .print ∧ d.toNat ≤ 16) ∨ (i = .status ∧ d.extractLsb' 6 2 = 0)) :
    dataAllowed w (responseWord c d) = true := by
  have hprint : w = 0xE000 ↔ i = .print := eq_encode_iff (j := .print) rfl hi
  have hstatus : w = 0xF000 ↔ i = .status := eq_encode_iff (j := .status) rfl hi
  simp only [dataAllowed, responseWord_data, responseWord_dataTop, hprint, hstatus]
  obtain rfl | ⟨rfl, hcount⟩ | ⟨rfl, htop⟩ := hd
  · split
    · decide
    · split <;> decide
  · simpa using hcount
  · simpa using htop

theorem mayAnswer_ok {i : Instr} {w : Word} {d : Byte} {s : State} (hi : decode w = .ok i) (hd : OkData i s d) :
    Monitor.mayAnswer w (responseWord .ok d) false = true := by
  have hdata : dataAllowed w (responseWord .ok d) = true := dataAllowed_responseWord hi .ok <| by
    obtain ⟨hzero, _⟩ | hprint | ⟨hstatus, rfl⟩ := hd
    · exact .inl hzero
    · exact .inr (.inl hprint)
    · exact .inr (.inr ⟨hstatus, statusByte_top s⟩)
  simp [Monitor.mayAnswer, legal_of_decode hi, responseWord_code, Code.bits, hdata]

theorem mayAnswer_fail {i : Instr} {w : Word} {d : Byte} (hi : decode w = .ok i) (hd : FailData i d) :
    Monitor.mayAnswer w (responseWord .fail d) true = true := by
  have hdata : dataAllowed w (responseWord .fail d) = true := dataAllowed_responseWord hi .fail (hd.imp_right .inl)
  simp [Monitor.mayAnswer, legal_of_decode hi, responseWord_code, Code.bits, hdata]

theorem mayAnswer_illegal {e : Illegal} {w : Word} (he : decode w = .error e) :
    Monitor.mayAnswer w (responseWord .illegal 0) false = true := by
  simp [Monitor.mayAnswer, not_legal_of_decode he, responseWord, Code.bits]

/-! ### One event of the protocol -/

/-- Inside the request `w`, with every write so far answered `ok`. -/
def Phase.Unfailed (w : Word) (p : Phase) : Prop := p = .started w ∨ p = .running w

theorem writeAllowed_of_writeable {p : Phase} {bl : Bool} {addr : BitVec 7} {b : Byte} (hb : Writeable bl b) :
    writeAllowed ⟨p, bl, addr⟩ addr b = true := by
  obtain ⟨hread, hbl⟩ := hb
  simp only [writeAllowed, hread, hbl, beq_self_eq_true, Bool.and_self]

theorem Monitor.next_write {p : Phase} {w : Word} {bl : Bool} {addr : BitVec 7} {b : Byte} (hp : p.Unfailed w)
    (hw : legal w = true) (hb : Writeable bl b) (e : WriteEnd) :
    Monitor.next ⟨p, bl, addr⟩ (.write addr b e) = some ⟨.afterWrite w e, bl, addr⟩ := by
  obtain rfl | rfl := hp <;> simp [Monitor.next, hw, writeAllowed_of_writeable hb]

theorem Monitor.next_delay {p : Phase} {w : Word} {bl : Bool} {addr : BitVec 7} {d : Nat} (hp : p.Unfailed w)
    (hw : legal w = true) (hd : d ≠ 0) : Monitor.next ⟨p, bl, addr⟩ (.delay d) = some ⟨.running w, bl, addr⟩ := by
  obtain rfl | rfl := hp <;> simp [Monitor.next, hw, hd]

theorem Monitor.next_delay_failed {w : Word} {bl : Bool} {addr : BitVec 7} {d : Nat} (hd : d ≠ 0) :
    Monitor.next ⟨.failed w, bl, addr⟩ (.delay d) = some ⟨.failed w, bl, addr⟩ := by
  simp [Monitor.next, hd]

theorem Monitor.next_rsp {p : Phase} {w r : Word} {bl : Bool} {addr : BitVec 7} (hp : p.Unfailed w)
    (hr : Monitor.mayAnswer w r false = true) : Monitor.next ⟨p, bl, addr⟩ (.rsp r) = some ⟨.idle, bl, addr⟩ := by
  obtain rfl | rfl := hp <;> simp [Monitor.next, hr]

theorem Monitor.next_rsp_failed {w r : Word} {bl : Bool} {addr : BitVec 7}
    (hr : Monitor.mayAnswer w r true = true) :
    Monitor.next ⟨.failed w, bl, addr⟩ (.rsp r) = some ⟨.idle, bl, addr⟩ := by
  simp [Monitor.next, hr]

/-! ### Where the event sequence stands -/

/-- The event sequence of `s` follows the protocol and stands at phase `p`, with the flag and address of `s`; between
steps this is `Follows` (`follows_iff`). -/
def StandsAt (p : Phase) (s : State) : Prop :=
  (Monitor.start s.params.slaveAddr).read s.events = some ⟨p, s.bl, s.params.slaveAddr⟩

theorem follows_iff (s : State) : Follows s ↔ StandsAt (phaseOf s.seq) s := Iff.rfl

/-- One event more, which the monitor takes. -/
theorem StandsAt.event {p q : Phase} {s t : State} {e : Event} (h : StandsAt p s) (hevents : t.events = s.events ++ [e])
    (hparams : t.params = s.params)
    (hnext : Monitor.next ⟨p, s.bl, s.params.slaveAddr⟩ e = some ⟨q, t.bl, s.params.slaveAddr⟩) : StandsAt q t := by
  unfold StandsAt at *
  rw [hevents, hparams, Monitor.read_append, h, Option.bind_some, hnext]

/-- A reset may come in every phase, and leaves the bridge IDLE with BL at its reset value. -/
theorem StandsAt.takeReset {p : Phase} {s : State} (h : StandsAt p s) : Follows (takeReset s) :=
  h.event (q := .idle) (takeReset_events s) rfl rfl

/-- The request word `w` is being executed, and every write so far was answered `ok`. -/
def Going (w : Word) (s : State) : Prop := s.seq = .busy w ∧ ∃ p : Phase, p.Unfailed w ∧ StandsAt p s

/-- The request word `w` is being executed, and a write was answered `fail`. -/
def Failed (w : Word) (s : State) : Prop := s.seq = .busy w ∧ StandsAt (.failed w) s

/-- A write of a going request leads to the phase of its end. -/
theorem Going.write {w : Word} {s t : State} {b : Byte} (h : Going w s) (hw : legal w = true) (hb : Writeable s.bl b)
    (e : WriteEnd) (hevents : t.events = s.events ++ [.write s.params.slaveAddr b e]) (hparams : t.params = s.params)
    (hbl : t.bl = s.bl) : StandsAt (.afterWrite w e) t := by
  obtain ⟨-, p, hp, hs⟩ := h
  exact hs.event hevents hparams (hbl ▸ Monitor.next_write hp hw hb e)

/-- The events of every request follow the protocol: `Going` up to its first failed write, `Failed` after that, and
`Follows` where it ends. -/
theorem closed_protocol {i : Instr} {w : Word} (hi : decode w = .ok i) : Closed i (Going w) (Failed w) Follows where
  ok b s rs hb _ h := ⟨h.1, .running w, .inr rfl,
    h.write (legal_of_decode hi) hb .ok (landed_events b { s with resets := rs }) rfl rfl⟩
  fail b s rs hb _ h := ⟨h.1,
    h.write (legal_of_decode hi) hb .fail (recordWrite_events b .fail { s with resets := rs }) rfl rfl⟩
  never b s rs hb _ h := by
    have hq : (disturb (recordOpenWrite b .unanswered { s with resets := rs })).seq = .busy w := h.1
    rw [follows_iff, hq]
    exact h.write (legal_of_decode hi) hb .unanswered (recordOpenWrite_events b .unanswered { s with resets := rs })
      rfl rfl
  reset s rs _ h := by
    obtain ⟨_, p, _, hs⟩ | ⟨_, hs⟩ := h
    · exact hs.takeReset
    · exact hs.takeReset
  cut b s rs hb _ h := by
    have hcut : StandsAt (.cut w) (disturb (recordOpenWrite b .cut { s with resets := rs })) :=
      h.write (legal_of_decode hi) hb .cut (recordOpenWrite_events b .cut { s with resets := rs }) rfl rfl
    exact hcut.takeReset
  waitOk d s rs hd _ h := by
    obtain ⟨hq, p, hp, hs⟩ := h
    exact ⟨hq, .running w, .inr rfl, hs.event (waited_events d { s with resets := rs }) rfl
      (Monitor.next_delay hp (legal_of_decode hi) hd)⟩
  waitFail d s rs hd _ h := by
    obtain ⟨hq, hs⟩ := h
    exact ⟨hq, hs.event (waited_events d { s with resets := rs }) rfl (Monitor.next_delay_failed hd)⟩
  answerOk d s rs _ hd _ h := by
    obtain ⟨_, p, hp, hs⟩ := h
    exact hs.event (q := .idle) (responded_events .ok d { s with resets := rs }) rfl
      (Monitor.next_rsp hp (mayAnswer_ok hi hd))
  answerFail d s rs hd _ h := by
    obtain ⟨_, hs⟩ := h
    exact hs.event (q := .idle) (responded_events .fail d { s with resets := rs }) rfl
      (Monitor.next_rsp_failed (mayAnswer_fail hi hd))
  answerIllegal _ _ hill _ _ := absurd (decode_spells hi).1 (by simp [hill])
  initStart _ _ h := h
  initEnter _ _ _ _ _ h := h
  initAbort _ _ _ h := h
  text _ _ _ _ h := h

/-! ### A whole step -/

/-- The monitor sets BL at the acceptance of BLON and BLOFF, as the requests themselves do first (R150, R151). -/
theorem blAfter_of_decode {i : Instr} {w : Word} (hi : decode w = .ok i) (bl : Bool) :
    blAfter w bl = if i = .blon then true else if i = .bloff then false else bl := by
  have hon : w = 0xA000 ↔ i = .blon := eq_encode_iff (j := .blon) rfl hi
  have hoff : w = 0xB000 ↔ i = .bloff := eq_encode_iff (j := .bloff) rfl hi
  simp only [blAfter, hon, hoff]

theorem blAfter_of_illegal {e : Illegal} {w : Word} (he : decode w = .error e) (bl : Bool) : blAfter w bl = bl := by
  have hne : ∀ j : Instr, decode (encode j) = .ok j → w ≠ encode j := by
    rintro j hj rfl
    cases he.symm.trans hj
  have hon : w ≠ 0xA000 := hne .blon rfl
  have hoff : w ≠ 0xB000 := hne .bloff rfl
  simp only [blAfter, hon, hoff, if_false]

/-- An IDLE bridge may accept any word; the monitor then has BL as the accepted word sets it. -/
theorem standsAt_takeRequest {s : State} {w : Word} {rest : List Word} (hq : s.seq = .idle) (h : Follows s) {bl : Bool}
    (hbl : blAfter w s.bl = bl) : StandsAt (.started w) (setBacklight bl (takeRequest w rest s)) := by
  rw [follows_iff, hq] at h
  exact h.event (takeRequest_events w rest s) rfl (by rw [setBacklight_bl, ← hbl]; rfl)

/-- The ILLEGAL answer follows the protocol. -/
theorem follows_raiseIllegal {s : State} {w : Word} {e : Illegal} (he : decode w = .error e)
    (h : StandsAt (.started w) s) : Follows (raiseIllegal s) :=
  respond_sat
    (fun rs _ => h.event (q := .idle) (responded_events .illegal 0 { s with resets := rs }) rfl
      (Monitor.next_rsp (.inl rfl) (mayAnswer_illegal he)))
    fun _ _ => h.takeReset

/-- Settles O52: from its acceptance on, an accepted word follows the protocol, a legal one through its whole request
(`closed_protocol`) and an ILLEGAL one to its answer; outside a request only a reset adds an event. -/
theorem stepFollowsTheProtocol : Obligations.StepFollowsTheProtocol := by
  intro s t hs h
  refine step_keeps (I := Follows) ?_ ?_ ?_ ?_ ?_ hs h
  · exact fun s rs hs => hs
  · exact fun s hs => hs
  · exact fun s hs => StandsAt.takeReset hs
  · intro s t w rest i hq hi hs hexec
    have hstarted := standsAt_takeRequest (rest := rest) hq hs (blAfter_of_decode hi s.bl)
    exact (closed_protocol hi).exec (s := takeRequest w rest s) ⟨rfl, .started w, .inl rfl, hstarted⟩ hexec
  · intro s w rest e hq he hs
    exact follows_raiseIllegal he (standsAt_takeRequest (rest := rest) hq hs (blAfter_of_illegal he s.bl))

end Sys2Proof.Safety

namespace Sys2Proof.Safety

open Sys2Proof.Machine

/-! ### Registers that a request does not write -/

/-- What `f` reads of a state is some of `BL`, `INIT_STATE`, `INIT_ERR` and the text buffer, and the request `i` does not
write it of its own. -/
structure NotWritten {α : Type} (i : Instr) (f : State → α) : Prop where
  /-- `f` reads nothing but these four. -/
  registers : ∀ s t : State, t.bl = s.bl → t.initState = s.initState → t.initErr = s.initErr → t.text = s.text →
    f t = f s
  /-- Only BLON and BLOFF write BL. -/
  backlight : ∀ s, f (setBacklight (if i = .blon then true else if i = .bloff then false else s.bl) s) = f s
  /-- Only INIT writes `INIT_STATE` and `INIT_ERR`. -/
  begin : i = .init → ∀ s, f (beginInit s) = f s
  enter : i = .init → ∀ k s, f (enterInit k s) = f s
  abort : i = .init → ∀ s, f (abortInit s) = f s
  /-- Only LDTXT writes the text buffer. -/
  store : ∀ idx byte, i = .ldtxt idx byte → ∀ s, f (storeText idx byte s) = f s

/-- No reset has taken effect since there were `n` assertions to come, and `f` still reads `a`. -/
def Kept {α : Type} (f : State → α) (n : Nat) (a : α) (s : State) : Prop := s.resets.length = n ∧ f s = a

/-- Unless a reset has taken effect, `f` still reads `a`. -/
def KeptUnlessReset {α : Type} (f : State → α) (n : Nat) (a : α) (t : State) : Prop := t.resets.length = n → f t = a

/-- An operation that leaves the four registers alone keeps what `f` reads. -/
theorem NotWritten.kept {α : Type} {i : Instr} {f : State → α} (N : NotWritten i f) {n : Nat} {a : α} {s t : State}
    (h : Kept f n a s) (hresets : t.resets.length = s.resets.length) (hbl : t.bl = s.bl)
    (hstate : t.initState = s.initState) (herr : t.initErr = s.initErr) (htext : t.text = s.text) : Kept f n a t :=
  ⟨hresets.trans h.1, (N.registers s t hbl hstate herr htext).trans h.2⟩

/-- Once an assertion of the reset input is used up, nothing is claimed. -/
theorem Kept.reset {α : Type} {f : State → α} {n : Nat} {a : α} {s t : State} (h : Kept f n a s)
    (hresets : t.resets.length + 1 = s.resets.length) : KeptUnlessReset f n a t := by
  intro hn
  have hs := h.1
  omega

theorem Kept.unlessReset {α : Type} {f : State → α} {n : Nat} {a : α} {s : State} (h : Kept f n a s) :
    KeptUnlessReset f n a s := fun _ => h.2

/-- What a request does not write of its own, it keeps up to its end or to a reset, failed writes included. -/
theorem NotWritten.closed {α : Type} {i : Instr} {f : State → α} (N : NotWritten i f) (n : Nat) (a : α) :
    Closed i (Kept f n a) (Kept f n a) (KeptUnlessReset f n a) where
  ok _ _ _ _ hl h := N.kept h hl rfl rfl rfl rfl
  fail _ _ _ _ hl h := N.kept h hl rfl rfl rfl rfl
  never _ _ _ _ hl h := Kept.unlessReset (N.kept h hl rfl rfl rfl rfl)
  reset _ _ hl h := (or_self_iff.mp h).reset hl
  cut _ _ _ _ hl h := h.reset hl
  waitOk _ _ _ _ hl h := N.kept h hl rfl rfl rfl rfl
  waitFail _ _ _ _ hl h := N.kept h hl rfl rfl rfl rfl
  answerOk _ _ _ _ _ hl h := Kept.unlessReset (N.kept h hl rfl rfl rfl rfl)
  answerFail _ _ _ _ hl h := Kept.unlessReset (N.kept h hl rfl rfl rfl rfl)
  answerIllegal _ _ _ hl h := Kept.unlessReset (N.kept h hl rfl rfl rfl rfl)
  initStart s hi h := ⟨h.1, (N.begin hi s).trans h.2⟩
  initEnter s k hi _ _ h := ⟨h.1, (N.enter hi k s).trans h.2⟩
  initAbort s hi _ h := ⟨h.1, (N.abort hi s).trans h.2⟩
  text s idx byte hi h := ⟨h.1, (N.store idx byte hi s).trans h.2⟩

/-- A request that no reset cuts off leaves what it does not write of its own as it was. -/
theorem NotWritten.exec {α : Type} {i : Instr} {f : State → α} (N : NotWritten i f) {s t : State}
    (h : Machine.exec i s = .next t) (hresets : t.resets.length = s.resets.length) : f t = f s :=
  (N.closed s.resets.length (f s)).exec ⟨rfl, N.backlight s⟩ h hresets

theorem notWritten_initState {i : Instr} (hi : i ≠ .init) : NotWritten i State.initState where
  registers _ _ _ h _ _ := h
  backlight _ := rfl
  begin h := absurd h hi
  enter h := absurd h hi
  abort h := absurd h hi
  store _ _ _ _ := rfl

theorem notWritten_initErr {i : Instr} (hi : i ≠ .init) : NotWritten i State.initErr where
  registers _ _ _ _ h _ := h
  backlight _ := rfl
  begin h := absurd h hi
  enter h := absurd h hi
  abort h := absurd h hi
  store _ _ _ _ := rfl

theorem notWritten_bl {i : Instr} (hon : i ≠ .blon) (hoff : i ≠ .bloff) : NotWritten i State.bl where
  registers _ _ h _ _ _ := h
  backlight s := by rw [setBacklight_bl, if_neg hon, if_neg hoff]
  begin _ _ := rfl
  enter _ _ _ := rfl
  abort _ _ := rfl
  store _ _ _ _ := rfl

theorem notWritten_text {i : Instr} (hi : ∀ idx byte, i ≠ .ldtxt idx byte) : NotWritten i State.text where
  registers _ _ _ _ _ h := h
  backlight _ := rfl
  begin _ _ := rfl
  enter _ _ _ := rfl
  abort _ _ := rfl
  store idx byte h := absurd h (hi idx byte)

/-- Settles O42: `INIT_STATE` and `INIT_ERR` are written only where INIT begins, enters a state or aborts. -/
theorem onlyInitWritesInitState : Obligations.OnlyInitWritesInitState := fun _ _ _ hi h hresets =>
  ⟨(notWritten_initState hi).exec h hresets, (notWritten_initErr hi).exec h hresets⟩

/-- Settles O43: BL is written only by `setBacklight`, with which BLON and BLOFF begin. -/
theorem onlyBacklightRequestsWriteBL : Obligations.OnlyBacklightRequestsWriteBL := fun _ _ _ hon hoff h hresets =>
  (notWritten_bl hon hoff).exec h hresets

/-- Settles O44: the text buffer is written only by `storeText`, with which LDTXT begins. -/
theorem onlyLdtxtWritesText : Obligations.OnlyLdtxtWritesText := fun _ _ _ hi h hresets =>
  (notWritten_text hi).exec h hresets

/-! ### The step at the host port, at a hang and at the reset input -/

/-- A BUSY bridge with no reset asserted stays as it is (R246). -/
theorem step_busy_quiet {s : State} {w : Word} (hq : s.seq = .busy w) (hr : s.resets = []) : step s = .next s := by
  simp only [step, hq, waitForAnswer, resetTaken_none hr]

/-- An IDLE bridge takes a reset that is due (R23). -/
theorem step_idle_reset {s : State} {rs : List Nat} (hq : s.seq = .idle) (hr : s.resets = 0 :: rs) :
    step s = .next (takeReset { s with resets := rs }) := by
  have htaken : resetTaken s = (true, { s with resets := rs }) := by simp only [resetTaken, hr]
  simp only [step, hq, htaken]

/-- With no reset asserted, an IDLE bridge executes the word on the port in the state where it is accepted (R21). -/
theorem step_idle_accept {s : State} {w : Word} {rest : List Word} (hq : s.seq = .idle) (hr : s.resets = [])
    (hw : s.requests = w :: rest) : step s = execWord w (takeRequest w rest s) := by
  simp only [step, hq, resetTaken_none hr, hw]

/-- Settles O12: the step of a hung bridge changes nothing, so no number of steps does. -/
theorem hungBridgeStaysBusy : Obligations.HungBridgeStaysBusy := fun n _ _ hq hr =>
  run_of_step_fixed (step_busy_quiet hq hr) n

/-- Settles O13: the step is `takeReset` of the state with one assertion of the reset input used up. -/
theorem resetOfAnIdleBridge : Obligations.ResetOfAnIdleBridge := by
  intro s rs hq hr
  have hstatus : statusByte (takeReset { s with resets := rs }) = 0x20 := by simp [statusByte]
  exact ⟨_, step_idle_reset hq hr, rfl, rfl, rfl, Memory.read_nil, rfl, rfl, hstatus, takeReset_events _, rfl, rfl, rfl,
    rfl, rfl, rfl⟩

/-- Settles O8: the step executes the word (`step_idle_accept`), and acceptance changes the sequencer, the port and the
event sequence alone. -/
theorem stepRunsTheAcceptedRequest : Obligations.StepRunsTheAcceptedRequest := by
  intro s w rest i hq hr hw hi
  have hstep : step s = exec i (takeRequest w rest s) := by
    rw [step_idle_accept hq hr hw]
    simp only [execWord, hi]
  exact ⟨hstep, takeRequest_events w rest s, rfl, rfl, rfl, rfl, rfl, rfl, rfl, rfl, rfl, rfl, rfl, rfl⟩

end Sys2Proof.Safety

/-! The delay statements (20_memory.md): the event times stay in order, and every wait keeps its lower bound. -/

namespace Sys2Proof.Safety

open Sys2Proof.Machine

/-! ### One event of the clock monitor -/

theorem timeAllowed_iff (now : Nat) (e : Timed) :
    timeAllowed now e = true ↔
      now ≤ e.start ∧ e.start ≤ e.stop ∧ ∀ d, e.event = .delay d → e.start = now ∧ now + d ≤ e.stop := by
  obtain ⟨event, start, stop⟩ := e
  cases event <;> simp [timeAllowed, and_assoc]

/-- An event that is no delay may begin at any time after the last one ended (R250). -/
theorem timeAllowed_nextStart {s : State} {e : Event} {stop : Nat} (he : ∀ d, e ≠ .delay d)
    (hstop : nextStart s ≤ stop) : timeAllowed s.now ⟨e, nextStart s, stop⟩ = true :=
  (timeAllowed_iff _ _).mpr ⟨Nat.le_add_right _ _, hstop, fun d hd => absurd hd (he d)⟩

/-- A wait that begins at once and lasts at least its bound (R250). -/
theorem timeAllowed_delay (now d excess : Nat) : timeAllowed now ⟨.delay d, now, now + d + excess⟩ = true :=
  (timeAllowed_iff _ _).mpr ⟨le_rfl, (Nat.le_add_right _ _).trans (Nat.le_add_right _ _), fun _ hd => by
    cases hd
    exact ⟨rfl, Nat.le_add_right _ _⟩⟩

theorem timeAllowed_reset (now : Nat) : timeAllowed now ⟨.reset, now, now⟩ = true :=
  (timeAllowed_iff _ _).mpr ⟨le_rfl, le_rfl, nofun⟩

/-! ### The time order after each operation -/

/-- One event more, which the clock monitor takes. -/
theorem OnTime.event {s t : State} {e : Timed} (h : OnTime s) (hlog : t.log = s.log ++ [e]) (hnow : t.now = e.stop)
    (he : timeAllowed s.now e = true) : OnTime t := by
  unfold OnTime at *
  rw [hlog, clockFrom_append, h, Option.bind_some, if_pos he, hnow]

theorem OnTime.takeReset {s : State} (h : OnTime s) : OnTime (takeReset s) :=
  h.event (takeReset_log s) rfl (timeAllowed_reset s.now)

theorem OnTime.takeRequest {s : State} (h : OnTime s) (w : Word) (rest : List Word) : OnTime (takeRequest w rest s) :=
  h.event (takeRequest_log w rest s) rfl (timeAllowed_nextStart nofun le_rfl)

theorem OnTime.recordWrite {s : State} (h : OnTime s) (b : Byte) (e : WriteEnd) : OnTime (recordWrite b e s) :=
  h.event (recordWrite_log b e s) rfl (timeAllowed_nextStart nofun (Nat.le_add_right _ _))

theorem OnTime.recordOpenWrite {s : State} (h : OnTime s) (b : Byte) (e : WriteEnd) : OnTime (recordOpenWrite b e s) :=
  h.event (recordOpenWrite_log b e s) rfl (timeAllowed_nextStart nofun le_rfl)

theorem OnTime.waited {s : State} (h : OnTime s) (d : Nat) : OnTime (waited d s) :=
  h.event (waited_log d s) rfl (timeAllowed_delay s.now d _)

theorem OnTime.responded {s : State} (h : OnTime s) (c : Code) (d : Byte) : OnTime (responded c d s) :=
  h.event (responded_log c d s) rfl (timeAllowed_nextStart nofun le_rfl)

/-- A state with the events and the time of one that is on time is itself on time. -/
theorem OnTime.congr {s t : State} (h : OnTime s) (hlog : t.log = s.log) (hnow : t.now = s.now) : OnTime t := by
  unfold OnTime at *
  rw [hlog, hnow, h]

theorem OnTime.disturb {s : State} (h : OnTime s) : OnTime (disturb s) :=
  h.congr (disturb_log s) (disturb_now s)

theorem OnTime.setResets {s : State} (h : OnTime s) (rs : List Nat) : OnTime { s with resets := rs } :=
  h.congr rfl rfl

theorem OnTime.landed {s : State} (h : OnTime s) (b : Byte) : OnTime (landed b s) :=
  (h.recordWrite b .ok).congr rfl rfl

/-! ### A whole request and a whole step -/

/-- The time order follows every request from its acceptance to its end, failed writes included. -/
theorem closed_onTime (i : Instr) : Closed i OnTime OnTime OnTime where
  ok b _ rs _ _ h := (h.setResets rs).landed b
  fail b _ rs _ _ h := ((h.setResets rs).recordWrite b .fail).disturb
  never b _ rs _ _ h := ((h.setResets rs).recordOpenWrite b .unanswered).disturb
  reset _ rs _ h := ((or_self_iff.mp h).setResets rs).takeReset
  cut b _ rs _ _ h := ((h.setResets rs).recordOpenWrite b .cut).disturb.takeReset
  waitOk d _ rs _ _ h := (h.setResets rs).waited d
  waitFail d _ rs _ _ h := (h.setResets rs).waited d
  answerOk d _ rs _ _ _ h := (h.setResets rs).responded .ok d
  answerFail d _ rs _ _ h := (h.setResets rs).responded .fail d
  answerIllegal _ rs _ _ h := (h.setResets rs).responded .illegal 0
  initStart s _ h := h.congr (beginInit_log s) (beginInit_now s)
  initEnter s k _ _ _ h := h.congr (enterInit_log k s) (enterInit_now k s)
  initAbort s _ _ h := h.congr (abortInit_log s) (abortInit_now s)
  text s idx byte _ h := h.congr (storeText_log idx byte s) (storeText_now idx byte s)

/-- The ILLEGAL answer keeps the time order: it is one response, or a reset before it. -/
theorem OnTime.raiseIllegal {s : State} (h : OnTime s) : OnTime (raiseIllegal s) :=
  respond_sat (fun rs _ => (h.setResets rs).responded .illegal 0) fun rs _ => (h.setResets rs).takeReset

/-- Settles O53: an accepted word keeps the time order, a legal one through its whole request (`closed_onTime`) and an
ILLEGAL one to its answer; outside a request only a reset adds an event, and it takes no time. -/
theorem stepKeepsEveryDelay : Obligations.StepKeepsEveryDelay := by
  intro s t hs h
  refine step_keeps (I := OnTime) (fun _ rs hs => hs.setResets rs) (fun _ hs => hs.disturb)
    (fun _ hs => hs.takeReset) ?_ ?_ hs h
  · intro s t w rest i _ _ hs hexec
    have haccepted : OnTime (takeRequest w rest s) := hs.takeRequest w rest
    exact (closed_onTime i).exec (haccepted.congr (setBacklight_log _ _) (setBacklight_now _ _)) hexec
  · exact fun _ w rest _ _ _ hs => (hs.takeRequest w rest).raiseIllegal

end Sys2Proof.Safety

/-! The encoding statements (30_encoding.md): requests and their words, how many words are legal, the assembler, the
response words, and the requests of the command set. -/

namespace Sys2Proof

open Sys2Proof.Laws

/-! ### From a request to its word and back -/

/-- A field has a value exactly when it has it as a number. -/
theorem field_eq_iff {m n : Nat} (w : BitVec m) (lo : Nat) (x : BitVec n) :
    w.extractLsb' lo n = x ↔ w.toNat / 2 ^ lo % 2 ^ n = x.toNat := by
  rw [← field_toNat, BitVec.toNat_eq]

/-- Opcode 0x1 is format FS8 (R71, R72). -/
theorem decode_of_opcode_send8 {w : Word} (hop : (opField w).toNat = 0x1) : decode w = decodeFS8 w := by
  simp only [decode, hop]

/-- Opcode 0x9 is format FDD (R71, R72). -/
theorem decode_of_opcode_setddram {w : Word} (hop : (opField w).toNat = 0x9) : decode w = decodeFDD w := by
  simp only [decode, hop]

/-- Opcode 0xD is format FLT (R71, R72). -/
theorem decode_of_opcode_ldtxt {w : Word} (hop : (opField w).toNat = 0xD) : decode w = decodeFLT w := by
  simp only [decode, hop]

theorem decodeFS8_encode (rs : Line) (v : Byte) : decodeFS8 (encode (.send8 0 rs v)) = .ok (.send8 0 rs v) := by
  have hw : (encode (.send8 0 rs v)).toNat = 0x1000 + 256 * rs.toNat + v.toNat := by
    simp only [encode, append_toNat]
    bv_omega
  have hreserved : (encode (.send8 0 rs v)).extractLsb' 10 2 = 0 := by
    rw [field_eq_zero]
    bv_omega
  have hrw : (encode (.send8 0 rs v)).extractLsb' 9 1 = 0 := by
    rw [field_eq_zero]
    bv_omega
  have hrs : (encode (.send8 0 rs v)).extractLsb' 8 1 = rs := by
    rw [field_eq_iff]
    bv_omega
  have hvalue : (encode (.send8 0 rs v)).extractLsb' 0 8 = v := by
    rw [field_eq_iff]
    bv_omega
  rw [decodeFS8, if_pos hreserved, if_pos hrw, hrs, hvalue]

theorem decodeFDD_encode (addr : BitVec 7) : decodeFDD (encode (.setddram addr)) = .ok (.setddram addr) := by
  have hw : (encode (.setddram addr)).toNat = 0x9000 + addr.toNat := by
    simp only [encode, append_toNat]
    bv_omega
  have hreserved : (encode (.setddram addr)).extractLsb' 7 5 = 0 := by
    rw [field_eq_zero]
    bv_omega
  have haddr : (encode (.setddram addr)).extractLsb' 0 7 = addr := by
    rw [field_eq_iff]
    bv_omega
  rw [decodeFDD, if_pos hreserved, haddr]

theorem decodeFLT_encode (idx : BitVec 4) (byte : Byte) :
    decodeFLT (encode (.ldtxt idx byte)) = .ok (.ldtxt idx byte) := by
  have hw : (encode (.ldtxt idx byte)).toNat = 0xD000 + 256 * idx.toNat + byte.toNat := by
    simp only [encode, append_toNat]
    bv_omega
  have hidx : (encode (.ldtxt idx byte)).extractLsb' 8 4 = idx := by
    rw [field_eq_iff]
    bv_omega
  have hbyte : (encode (.ldtxt idx byte)).extractLsb' 0 8 = byte := by
    rw [field_eq_iff]
    bv_omega
  rw [decodeFLT, hidx, hbyte]

/-- The opcode of the word selects the request's format, which reads its operands back; a request without operands has
one word. -/
theorem decode_encode {i : Instr} (hi : i.wellFormed = true) : decode (encode i) = .ok i := by
  cases i with
  | send8 rw rs v =>
    obtain rfl : rw = 0 := by simpa [Instr.wellFormed] using hi
    rw [decode_of_opcode_send8 (OpcodeNibble.send8 0 rs v), decodeFS8_encode]
  | setddram addr => rw [decode_of_opcode_setddram (OpcodeNibble.setddram addr), decodeFDD_encode]
  | ldtxt idx byte => rw [decode_of_opcode_ldtxt (OpcodeNibble.ldtxt idx byte), decodeFLT_encode]
  | _ => rfl

theorem legal_encode {i : Instr} (hi : i.wellFormed = true) : legal (encode i) = true :=
  legal_of_decode (decode_encode hi)

/-- Settles O1: each format of R71 reads back the operands that were laid out in it. -/
theorem decodeInvertsEncode : Obligations.DecodeInvertsEncode := fun _ => decode_encode

/-- Settles O2: each format of R71 reads every bit of a legal word. -/
theorem legalWordIsItsRequestsWord : Obligations.LegalWordIsItsRequestsWord := fun _ _ => decode_spells

/-- Settles O5: each of the eight words is the encoding of its request. -/
theorem sampleWordsDecode : Obligations.SampleWordsDecode :=
  ⟨decode_encode (i := .send8 0 1 0x41) rfl, decode_encode (i := .fnset) rfl,
    decode_encode (i := .setddram 0x40) rfl, decode_encode (i := .blon) rfl, decode_encode (i := .init) rfl,
    decode_encode (i := .ldtxt 1 0x41) rfl, decode_encode (i := .print) rfl, decode_encode (i := .status) rfl⟩

/-! ### How many words are legal -/

/-- How many words of an opcode are legal (R73). -/
def legalCount (op : Nat) : Nat :=
  match op with
  | 0x0 | 0x2 => 0
  | 0x1 => 512
  | 0x9 => 128
  | 0xD => 4096
  | _ => 1

/-- The legal words of an opcode are its first `legalCount` words, for every operand of R71 ends at bit 0. -/
theorem legal_iff_lt (w : Word) : legal w = true ↔ w.toNat % 4096 < legalCount (opField w).toNat := by
  unfold legal opField
  split <;>
    simp only [legalCount, *, Bool.and_eq_true, beq_iff_eq, field_eq_zero, Bool.false_eq_true, false_iff, true_iff] <;>
    omega

theorem legalCount_le (op : Nat) : legalCount op ≤ 4096 := by
  unfold legalCount
  split <;> omega

/-- Word number `n` of opcode `op`. -/
theorem legal_ofNat {op n : Nat} (hop : op < 16) (hn : n < 4096) :
    legal (BitVec.ofNat 16 (4096 * op + n)) = true ↔ n < legalCount op := by
  have hw : (BitVec.ofNat 16 (4096 * op + n)).toNat = 4096 * op + n := by
    rw [BitVec.toNat_ofNat]
    omega
  have hopField : (4096 * op + n) / 4096 = op := by omega
  have hrest : (4096 * op + n) % 4096 = n := by omega
  rw [legal_iff_lt, opField_toNat, hw, hopField, hrest]

/-- Of the first `n` numbers, those below `k`. -/
theorem countP_lt_range (n k : Nat) : (List.range n).countP (fun m => decide (m < k)) = min n k := by
  rw [List.countP_eq_length_filter, ← List.Ico.zero_bot, List.Ico.filter_lt, List.Ico.length, Nat.sub_zero]

theorem countP_legal {op : Nat} (hop : op < 16) :
    (List.range 4096).countP (fun n => legal (BitVec.ofNat 16 (4096 * op + n))) = legalCount op := by
  calc (List.range 4096).countP (fun n => legal (BitVec.ofNat 16 (4096 * op + n)))
      = (List.range 4096).countP (fun n => decide (n < legalCount op)) :=
        List.countP_congr fun n hn => by rw [legal_ofNat hop (List.mem_range.mp hn), decide_eq_true_iff]
    _ = min 4096 (legalCount op) := countP_lt_range _ _
    _ = legalCount op := Nat.min_eq_right (legalCount_le op)

/-- Settles O3: the decoder and the legality test agree format by format, and the legal words of each opcode are counted
as an initial segment of it (`legal_ofNat`). -/
theorem legalWordsDecodeAndNumber4747 : Obligations.LegalWordsDecodeAndNumber4747 :=
  ⟨decodes_iff_legal, fun _ _ h => (decode_spells h).1,
    (List.map_congr_left fun _ hop => countP_legal (List.mem_range.mp hop)).trans rfl, rfl⟩

end Sys2Proof

namespace Sys2Proof.Machine

/-! ### The assembler -/

/-- Every word of the list is legal. -/
def AllLegal (ws : List Word) : Prop := ∀ w ∈ ws, legal w = true

theorem AllLegal.encode {i : Instr} (hi : i.wellFormed = true) : AllLegal [encode i] := fun _ hw =>
  List.mem_singleton.mp hw ▸ legal_encode hi

theorem AllLegal.append {as bs : List Word} (ha : AllLegal as) (hb : AllLegal bs) : AllLegal (as ++ bs) := fun w hw =>
  (List.mem_append.mp hw).elim (ha w) (hb w)

theorem asmSend8_legal {rs value : Nat} {ws : List Word} (h : asmSend8 rs value = some ws) : AllLegal ws := by
  obtain ⟨r, -, h⟩ := Option.bind_eq_some_iff.mp h
  obtain ⟨v, -, h⟩ := Option.bind_eq_some_iff.mp h
  cases h
  exact .encode rfl

theorem asmSetddram_legal {addr : Nat} {ws : List Word} (h : asmSetddram addr = some ws) : AllLegal ws := by
  obtain ⟨a, -, h⟩ := Option.bind_eq_some_iff.mp h
  cases h
  exact .encode rfl

theorem asmLdtxt_legal {idx byte : Nat} {ws : List Word} (h : asmLdtxt idx byte = some ws) : AllLegal ws := by
  obtain ⟨i, -, h⟩ := Option.bind_eq_some_iff.mp h
  obtain ⟨b, -, h⟩ := Option.bind_eq_some_iff.mp h
  cases h
  exact .encode rfl

theorem asmLdstrFrom_legal {i : Nat} {cs : List Nat} {ws : List Word} (h : asmLdstrFrom i cs = some ws) :
    AllLegal ws := by
  induction cs generalizing i ws with
  | nil =>
    simp only [asmLdstrFrom] at h
    split at h
    · exact asmLdtxt_legal h
    · cases h
      exact nofun
  | cons c cs ih =>
    obtain ⟨char, hchar, h⟩ := Option.bind_eq_some_iff.mp h
    obtain ⟨rest, hrest, h⟩ := Option.bind_eq_some_iff.mp h
    cases h
    exact (asmLdtxt_legal hchar).append (ih hrest)

/-- `PUTS` to the row that begins at `addr`: a SETDDRAM to the row, the text and a PRINT (R86). -/
def asmPutsAt (addr : Nat) (cs : List Nat) : Option (List Word) := do
  let row ← asmSetddram addr
  let text ← asmLdstrFrom 0 cs
  return row ++ text ++ [encode .print]

theorem asmPutsAt_legal {addr : Nat} {cs : List Nat} {ws : List Word} (h : asmPutsAt addr cs = some ws) :
    AllLegal ws := by
  obtain ⟨row, hrow, h⟩ := Option.bind_eq_some_iff.mp h
  obtain ⟨text, htext, h⟩ := Option.bind_eq_some_iff.mp h
  cases h
  exact ((asmSetddram_legal hrow).append (asmLdstrFrom_legal htext)).append (.encode (i := .print) rfl)

theorem assemble_puts (r : Nat) (cs : List Nat) :
    assemble (.puts r cs) = if r = 0 then asmPutsAt 0x00 cs else if r = 1 then asmPutsAt 0x40 cs else none := rfl

theorem assemble_puts_legal {r : Nat} {cs : List Nat} {ws : List Word} (h : assemble (.puts r cs) = some ws) :
    AllLegal ws := by
  rw [assemble_puts] at h
  split at h
  · exact asmPutsAt_legal h
  · split at h
    · exact asmPutsAt_legal h
    · cases h

/-- Settles O7: a line emits only words that are encodings of well-formed requests, `.word` aside. -/
theorem assemblerSpellsOnlyLegalWords : Obligations.AssemblerSpellsOnlyLegalWords := by
  intro l ws hl h
  change AllLegal ws
  cases l with
  | word w => exact absurd rfl (hl w)
  | send8 | instr | data => exact asmSend8_legal h
  | setddram | row0 | row1 => exact asmSetddram_legal h
  | ldtxt => exact asmLdtxt_legal h
  | ldstr => exact asmLdstrFrom_legal h
  | puts => exact assemble_puts_legal h
  | _ =>
    cases h
    exact .encode rfl

/-! ### Response words -/

theorem responseWord_reserved (c : Code) (d : Byte) : (responseWord c d).extractLsb' 2 6 = 0 := by
  rw [field_eq_zero, responseWord, append_toNat, append_toNat]
  bv_omega

theorem responseWord_codeBits (c : Code) (d : Byte) : (responseWord c d).extractLsb' 0 2 = c.bits := by
  rw [field_eq_iff, responseWord, append_toNat]
  bv_omega

theorem readResponse_responseWord (c : Code) (d : Byte) : readResponse (responseWord c d) = .ok (c, d) := by
  rw [readResponse, if_pos (responseWord_reserved c d), responseWord_codeBits, Safety.responseWord_data]
  cases c <;> rfl

/-- The reading is a fault exactly at a reserved word (R80). -/
theorem readResponse_error_iff (r : Word) :
    readResponse r = .error .reservedResponse ↔ r.extractLsb' 2 6 ≠ 0 ∨ r.extractLsb' 0 2 = 0b11 := by
  by_cases hres : r.extractLsb' 2 6 = 0#6
  · have hcode : ∀ c : BitVec 2, c = 0b00 ∨ c = 0b01 ∨ c = 0b10 ∨ c = 0b11 := by decide
    rcases hcode (r.extractLsb' 0 2) with h | h | h | h <;> simp [readResponse, hres, h]
  · simp [readResponse, hres]

/-- Settles O6: the three fields of a response word are its data, zeros and the code's two bits. -/
theorem responseWordsReadBack : Obligations.ResponseWordsReadBack :=
  ⟨readResponse_responseWord, readResponse_error_iff⟩

end Sys2Proof.Machine

namespace Sys2Proof.Safety

open Sys2Proof.Machine

/-! ### SEND8 that asks to read, and the command set -/

/-- RW = 1 is answered ILLEGAL before any write (R123). -/
theorem exec_send8_read {rs : Line} {v : Byte} {s : State} (hr : s.resets = []) :
    exec (.send8 1 rs v) s = .next (responded .illegal 0 s) :=
  congrArg Host.Outcome.next (respond_quiet hr)

/-- Of opcode 0x1, a word with bit 9 set is refused (R76). -/
theorem decode_error_of_read {w : Word} (hop : opField w = 0x1) (hrw : w.extractLsb' 9 1 = 1) :
    ∃ e, decode w = .error e := by
  rw [decode_of_opcode_send8 (by rw [hop]; rfl), decodeFS8, hrw]
  split
  · exact ⟨.readRequested, rfl⟩
  · exact ⟨.reservedBits, rfl⟩

/-- Settles O26: the request is answered at once, and format FS8 refuses bit 9. -/
theorem send8RefusesToRead : Obligations.Send8RefusesToRead := by
  refine ⟨fun rs v s hr => ⟨_, exec_send8_read hr, responded_events _ _ _, rfl, rfl, rfl, rfl, ?_⟩, fun _ =>
    decode_error_of_read⟩
  exact ⟨rfl, rfl, rfl, rfl, rfl, rfl, rfl, rfl⟩

/-- The response to a command follows its delay (R138). -/
theorem exec_command_ok {i : Instr} {opc : Byte} {d : Nat} {s : State} (hi : command s.params i = some (opc, d))
    (h : AllOk 6 s) :
    exec i s = .next (responded .ok 0 (afterDelay d (landedAll (transferBytes s.bl 0 opc) s))) := by
  have hr : (afterDelay d (landedAll (transferBytes s.bl 0 opc) s)).resets = [] := by simpa using h.1
  rw [exec_command hi, cmd_ok opc d h, respondResult_go hr]
  rfl

/-- Settles O29: the fields of the state in which `exec_command_ok` ends. -/
theorem commandsComplete : Obligations.CommandsComplete := by
  intro i opc d s hi h
  refine ⟨_, exec_command_ok hi h, ?_, ?_, ?_, ?_, rfl, ?_⟩
  · simp [responseWord, Code.bits]
  · simp [landedAll_transfer_pins]
  · simp
  · simp [transferBytes, strobeBytes]
  · simp [Unchanged]

end Sys2Proof.Safety

/-! The transport statements (40_transport_latch.md): the transport write, the strobe, and the latches of the controller
and their pairing. -/

namespace Sys2Proof.Machine

/-! ### The enable line and the latch -/

/-- The latch that a falling edge of enable makes of the byte `b` (R108). -/
def latchedFrom (b : Byte) : Latch := ⟨b.extractLsb' 0 1, b.extractLsb' 1 1, b.extractLsb' 4 4⟩

theorem latchOf_toList (p b : Byte) : (latchOf p b).toList =
    if p.getLsbD 2 = true ∧ b.getLsbD 2 = false then [latchedFrom b] else [] := by
  by_cases h : p.getLsbD 2 = true ∧ b.getLsbD 2 = false
  · rw [latchOf, if_pos h.symm, if_pos h]
    rfl
  · rw [latchOf, if_neg (mt And.symm h), if_neg h]
    rfl

/-- A byte with enable set makes no falling edge. -/
theorem latchOf_enable_set {b : Byte} (hb : b.getLsbD 2 = true) (p : Byte) : latchOf p b = none := by
  simp [latchOf, hb]

theorem blBit_backlight (bl : Bool) : (blBit bl).getLsbD 3 = bl := by
  cases bl <;> rfl

/-! ### The three bytes of a strobe -/

/-- The first and the third byte of the strobe of `c`: enable set (R104). -/
def setByte (c blb : Byte) : Byte := (c ||| 0x04) ||| blb

/-- The second byte of the strobe of `c`: enable cleared (R104). -/
def clearByte (c blb : Byte) : Byte := (c ||| blb) &&& 0xFB

/-- The bytes of the strobe of `c` with BL at `bl` (R104). -/
def strobeOf (c : Byte) (bl : Bool) : List Byte := [setByte c (blBit bl), clearByte c (blBit bl), setByte c (blBit bl)]

theorem strobe_eq (c : Byte) (s : State) : strobe c s = writeAll (strobeOf c s.bl) s := strobe_eq_writeAll c s

theorem setByte_enable (c blb : Byte) : (setByte c blb).getLsbD 2 = true := by
  simp [setByte]

theorem clearByte_enable (c blb : Byte) : (clearByte c blb).getLsbD 2 = false := by
  simp [clearByte]

theorem setByte_backlight {c : Byte} (hc : c.getLsbD 3 = false) (bl : Bool) :
    (setByte c (blBit bl)).getLsbD 3 = bl := by
  rw [setByte, BitVec.getLsbD_or, BitVec.getLsbD_or, hc, blBit_backlight]
  rfl

theorem clearByte_backlight {c : Byte} (hc : c.getLsbD 3 = false) (bl : Bool) :
    (clearByte c (blBit bl)).getLsbD 3 = bl := by
  rw [clearByte, BitVec.getLsbD_and, BitVec.getLsbD_or, hc, blBit_backlight]
  exact Bool.and_true bl

/-- A byte with bits 3:2 zero has both lines off. -/
theorem lines_off {c : Byte} (hc : c.extractLsb' 2 2 = 0) : c.getLsbD 2 = false ∧ c.getLsbD 3 = false := by
  revert c; decide

/-- Clearing enable does nothing to a byte that never set it (R106). -/
theorem clearByte_eq {c : Byte} (hc : c.getLsbD 2 = false) (bl : Bool) :
    clearByte c (blBit bl) = c ||| blBit bl := by
  revert c bl; decide

/-- The backlight bit and enable are in no field of a latch. -/
theorem latchedFrom_clearByte (c : Byte) (bl : Bool) : latchedFrom (clearByte c (blBit bl)) = latchedFrom c := by
  revert c bl; decide

/-- The second byte of a strobe makes the strobe's latch (R108). -/
theorem latchOf_strobe (c : Byte) (bl : Bool) :
    (latchOf (setByte c (blBit bl)) (clearByte c (blBit bl))).toList = [latchedFrom c] := by
  rw [latchOf_toList, if_pos ⟨setByte_enable _ _, clearByte_enable _ _⟩, latchedFrom_clearByte]

/-- The first two writes of a strobe make its latch, the first by itself none (R108, R110). -/
theorem landedAll_edge_latches (c : Byte) (bl : Bool) (s : State) :
    (landedAll ((strobeOf c bl).take 2) s).latches = s.latches ++ [latchedFrom c] := by
  simp [strobeOf, landedAll, latchOf_enable_set (setByte_enable _ _), latchOf_strobe]

/-- The third write of a strobe makes no latch. -/
theorem landedAll_strobeOf_latches (c : Byte) (bl : Bool) (s : State) :
    (landedAll (strobeOf c bl) s).latches = s.latches ++ [latchedFrom c] := by
  rw [show strobeOf c bl = (strobeOf c bl).take 2 ++ [setByte c (blBit bl)] from rfl, landedAll_append]
  simp [landedAll, latchOf_enable_set (setByte_enable _ _), landedAll_edge_latches]

/-! ### Writes that all succeed, in any environment -/

theorem transportWrite_true_pins {b : Byte} {s t : State} (h : transportWrite b s = .go true t) : t.pins = b := by
  obtain ⟨rs, _, h' | h' | h'⟩ | ⟨rs, _, h' | h'⟩ := transportWrite_cases b s <;> rw [h'] at h <;> cases h
  rfl

/-- A list of writes that returns true made its first write with success, and then the others. -/
theorem writeAll_cons_true {b : Byte} {bs : List Byte} {s t : State} (h : writeAll (b :: bs) s = .go true t) :
    ∃ u, transportWrite b s = .go true u ∧ writeAll bs u = .go true t := by
  rw [writeAll] at h
  cases hw : transportWrite b s with
  | stop u => simp [hw] at h
  | go r u =>
    cases r with
    | false => simp [hw] at h
    | true => exact ⟨u, rfl, by simpa [hw] using h⟩

/-- The pins after a list of writes that returned true are the last byte written. -/
theorem writeAll_true_pins {bs : List Byte} {s t : State} (h : writeAll bs s = .go true t) :
    t.pins = bs.getLastD s.pins := by
  induction bs generalizing s with
  | nil => cases h; rfl
  | cons b bs ih =>
    obtain ⟨u, hfirst, hrest⟩ := writeAll_cons_true h
    rw [ih hrest, transportWrite_true_pins hfirst, List.getLastD_cons]

/-! ### The pairing of latches -/

/-- One pair is one byte, and an odd latch at the end is none. -/
theorem pairsFrom_length (n : Nat) (ls : List Latch) : (pairsFrom n ls).length = ls.length / 2 := by
  induction n, ls using pairsFrom.induct with
  | case1 n x y ls ih =>
    simp only [pairsFrom, List.length_cons, ih]
    omega
  | case2 ls n hshort =>
    match ls with
    | [] => rfl
    | [_] => simp [pairsFrom]
    | x :: y :: ls => exact absurd rfl (hshort x y ls)

/-- Pair number `k` is made of the latches `2k` and `2k + 1`. -/
theorem pairsFrom_getElem? {n k : Nat} {ls : List Latch} {a b : Latch} (ha : ls[2 * k]? = some a)
    (hb : ls[2 * k + 1]? = some b) : (pairsFrom n ls)[k]? =
      some (if a.rs = b.rs then a.rs else Config.mixedRs (n + k) a b, a.nibble ++ b.nibble) := by
  induction n, ls using pairsFrom.induct generalizing k with
  | case1 n x y ls ih =>
    cases k with
    | zero =>
      cases ha
      cases hb
      rfl
    | succ k =>
      rw [show n + (k + 1) = n + 1 + k by omega]
      exact ih ha hb
  | case2 ls n hshort =>
    match ls with
    | [] => simp at ha
    | [_] => simp at hb
    | x :: y :: ls => exact absurd rfl (hshort x y ls)

end Sys2Proof.Machine

namespace Sys2Proof.Safety

open Sys2Proof.Machine

/-! ### What writes leave unchanged -/

theorem unchanged_landedAll (bs : List Byte) (s : State) : Unchanged s (landedAll bs s) := by
  simp [Unchanged]

theorem unchanged_failedWrite (b : Byte) (bs : List Byte) (s : State) :
    Unchanged s (disturb (recordWrite b .fail (landedAll bs s))) := by
  simp [Unchanged]

theorem unchanged_unansweredWrite (b : Byte) (bs : List Byte) (s : State) :
    Unchanged s (disturb (recordOpenWrite b .unanswered (landedAll bs s))) := by
  simp [Unchanged]

/-- With byte number `k` the first answered `fail`: the writes up to it and no other, at least the latches
of the bytes before it, and no state of the bridge. -/
theorem writeAll_stops_at_failure {bs : List Byte} {k : Nat} {s : State} (hk : k < bs.length)
    (h : AnsweredAt k .fail s) : ∃ t, writeAll bs s = .go false t ∧
      t.events = s.events ++ writesUpTo s.params.slaveAddr bs k .fail ∧
      (landedAll (bs.take k) s).latches <+: t.latches ∧
      t.answers = s.answers.drop (k + 1) ∧ t.seq = s.seq ∧ Unchanged s t := by
  have hb : bs[k]? = some bs[k] := List.getElem?_eq_getElem hk
  refine ⟨_, writeAll_fail bs hb h, ?_, ⟨_, rfl⟩, answers_after_write bs hk s, landedAll_seq _ s,
    unchanged_failedWrite _ _ s⟩
  simp [writesUpTo_eq .fail hb]

/-! ### The transport write -/

/-- Settles O17: each answer of the bus gives its state (`transportWrite_ok`, `transportWrite_fail`,
`transportWrite_never`). -/
theorem transportWriteOnEachAnswer : Obligations.TransportWriteOnEachAnswer := by
  refine fun b s => ⟨fun h => ?_, fun h => ?_, fun h => ?_⟩
  · refine ⟨_, transportWrite_ok h.1 h.here, landed_events b s, rfl, List.drop_one.symm, rfl,
      unchanged_landedAll [b] s, ?_⟩
    rw [landed_latches, latchOf_toList]
    rfl
  · exact ⟨_, transportWrite_fail h.1 h.here, recordWrite_events b .fail s, List.drop_one.symm, rfl,
      unchanged_failedWrite b [] s⟩
  · exact ⟨_, transportWrite_never h.1 h.here, recordOpenWrite_events b .unanswered s, List.drop_one.symm, rfl,
      unchanged_unansweredWrite b [] s⟩

/-! ### The strobe -/

/-- A strobe whose writes are answered `ok`. -/
theorem strobe_ok (c : Byte) {s : State} (h : AllOk 3 s) : strobe c s = .go true (landedAll (strobeOf c s.bl) s) := by
  rw [strobe_eq, writeAll_ok (strobeOf c s.bl) h]

theorem frameHi_lines_off (rs rw : Line) (v : Byte) : (frameHi rs rw v).extractLsb' 2 2 = 0 := by
  revert rs rw v; decide

theorem frameLo_lines_off (rs rw : Line) (v : Byte) : (frameLo rs rw v).extractLsb' 2 2 = 0 := by
  revert rs rw v; decide

theorem frameForced_lines_off (n : Nibble) : (frameForced n).extractLsb' 2 2 = 0 := by
  revert n; decide

/-- Settles O18: bits 3 and 2 of the frame are zero, so enable and the backlight bit are what the strobe makes them, and
clearing enable gives back the frame with its backlight bit. -/
theorem strobeWritesSetClearSet : Obligations.StrobeWritesSetClearSet := by
  refine ⟨fun rs rw v => ⟨frameHi_lines_off rs rw v, frameLo_lines_off rs rw v⟩, frameForced_lines_off, ?_⟩
  intro c s hc h
  obtain ⟨henable, hbacklight⟩ := lines_off hc
  exact ⟨_, _, _, _, strobe_ok c h, landedAll_events _ s, rfl, clearByte_eq henable s.bl, rfl,
    setByte_enable _ _, clearByte_enable _ _, setByte_backlight hbacklight s.bl, clearByte_backlight hbacklight s.bl,
    landedAll_strobeOf_latches c s.bl s, landedAll_answers _ s, landedAll_seq _ s, unchanged_landedAll _ s⟩

/-- Settles O19: a strobe is its three writes in order until one fails; when the third fails, the first two have made
the latch. -/
theorem strobeStopsAtAFailedWrite : Obligations.StrobeStopsAtAFailedWrite := by
  refine fun c s => ⟨fun h => ?_, fun k hk h => ?_⟩
  · exact ⟨_, strobe_ok c h, landedAll_events _ s, landedAll_seq _ s, unchanged_landedAll _ s⟩
  · obtain ⟨t, hrun, hevents, hlatches, hframe⟩ := writeAll_stops_at_failure (bs := strobeOf c s.bl) hk h
    refine ⟨t, (strobe_eq c s).trans hrun, hevents, ?_, hframe⟩
    rintro rfl
    rwa [landedAll_edge_latches] at hlatches

/-- Settles O20: the last byte of a strobe has enable set, and so has its first. -/
theorem successfulStrobeLeavesEnableSet : Obligations.SuccessfulStrobeLeavesEnableSet := by
  refine ⟨fun c s t h => ?_, fun c p blb => latchOf_enable_set (setByte_enable c blb) p⟩
  have hpins : t.pins = setByte c (blBit s.bl) := writeAll_true_pins ((strobe_eq c s).symm.trans h)
  rw [hpins, setByte_enable]

/-! ### The bytes the display receives -/

/-- SEND8 with every write answered `ok` (R123). -/
theorem exec_send8_ok (rs : Line) (v : Byte) {s : State} (h : AllOk 6 s) :
    exec (.send8 0 rs v) s = .next (responded .ok 0 (landedAll (transferBytes s.bl rs v) s)) := by
  have hr : (landedAll (transferBytes s.bl rs v) s).resets = [] := by simpa using h.1
  rw [exec_send8, writeAll_ok (transferBytes s.bl rs v) h, respondResult_go hr]
  rfl

/-- A byte is its high nibble and its low nibble. -/
theorem nibbles_append (v : Byte) : v.extractLsb' 4 4 ++ v.extractLsb' 0 4 = v := by
  revert v; decide

theorem receivedBytes_transferLatches (rs : Line) (v : Byte) : receivedBytes (transferLatches rs v) = [(rs, v)] := by
  simp [receivedBytes, transferLatches, pairsFrom, nibbles_append]

/-- Settles O27: the latches added are the transfer's two, one pair with one register-select. -/
theorem byteTransferReassembles : Obligations.ByteTransferReassembles := by
  intro rs v s h
  have hlatches : (responded .ok 0 (landedAll (transferBytes s.bl rs v) s)).latches =
      s.latches ++ transferLatches rs v := landedAll_transfer_latches s.bl rs v s
  refine ⟨_, exec_send8_ok rs v h, ?_⟩
  rw [hlatches, List.drop_left]
  exact ⟨List.prefix_append _ _, rfl, receivedBytes_transferLatches rs v⟩

/-- Settles O28: the pairing takes two latches at a time from the first on. -/
theorem everyTwoLatchesAreOneByte : Obligations.EveryTwoLatchesAreOneByte := fun ls =>
  ⟨pairsFrom_length 0 ls, fun _ _ _ ha hb => ⟨_, pairsFrom_getElem? ha hb, fun h => if_pos h⟩⟩

end Sys2Proof.Safety

/-! The byte transfer statements (41_byte_transfer.md): the byte framer, the forced nibble and SEND8. Each is a list of
writes, so each answer of the bus is a case of `writeAll_ok` or `writeAll_stops_at_failure`. -/

namespace Sys2Proof.Safety

open Sys2Proof.Machine

/-! ### The byte framer and the forced nibble -/

/-- A byte transfer whose writes are answered `ok` (R121). -/
theorem send8_ok (rs : Line) (v : Byte) {s : State} (h : AllOk 6 s) :
    send8 rs 0 v s = .go true (landedAll (transferBytes s.bl rs v) s) := by
  rw [send8_eq_writeAll, writeAll_ok (transferBytes s.bl rs v) h]

/-- A forced nibble whose writes are answered `ok` (R122). -/
theorem send4f_ok (n : Nibble) {s : State} (h : AllOk 3 s) :
    send4f n s = .go true (landedAll (strobeBytes s.bl 0 n) s) := by
  rw [send4f_eq_writeAll, writeAll_ok (strobeBytes s.bl 0 n) h]

/-- Settles O21: `send8` is the six writes of the transfer in order, until one fails. -/
theorem send8StrobesHighThenLow : Obligations.Send8StrobesHighThenLow := by
  refine fun rs v s => ⟨fun h => ?_, fun k hk h => ?_⟩
  · exact ⟨_, send8_ok rs v h, landedAll_events _ s, landedAll_answers _ s, landedAll_seq _ s,
      unchanged_landedAll _ s⟩
  · obtain ⟨t, hrun, hevents, -, hframe⟩ := writeAll_stops_at_failure (bs := transferBytes s.bl rs v) hk h
    exact ⟨t, (send8_eq_writeAll rs v s).trans hrun, hevents, hframe⟩

/-- Settles O22: `send4f` is the three writes of one strobe in order, until one fails. -/
theorem forcedNibbleIsOneStrobe : Obligations.ForcedNibbleIsOneStrobe := by
  refine fun n s => ⟨fun h => ?_, fun k hk h => ?_⟩
  · exact ⟨_, send4f_ok n h, landedAll_events _ s, landedAll_strobe_latches s.bl 0 n s, landedAll_seq _ s,
      unchanged_landedAll _ s⟩
  · obtain ⟨t, hrun, hevents, -, -, hframe⟩ := writeAll_stops_at_failure (bs := strobeBytes s.bl 0 n) hk h
    exact ⟨t, (send4f_eq_writeAll n s).trans hrun, hevents, hframe⟩

/-! ### SEND8 -/

/-- A response leaves the registers, the parameters and the inputs not yet given as they are (R24). -/
theorem Unchanged.responded {s t : State} (h : Unchanged s t) (c : Code) (d : Byte) :
    Unchanged s (responded c d t) := h

/-- No reset was asserted before, so none is after. -/
theorem Unchanged.resets_nil {s t : State} (h : Unchanged s t) (hr : s.resets = []) : t.resets = [] := by
  obtain ⟨-, -, -, -, -, -, -, hresets⟩ := h
  rw [hresets, hr]

/-- Settles O24: the fields of the state in which `exec_send8_ok` ends. -/
theorem send8Completes : Obligations.Send8Completes := by
  intro rs v s h
  refine ⟨_, exec_send8_ok rs v h, ?_, landedAll_transfer_pins s.bl rs v s, landedAll_transfer_latches s.bl rs v s,
    landedAll_answers _ s, rfl, (unchanged_landedAll _ s).responded .ok 0⟩
  rw [responded_events, landedAll_events]
  rfl

/-- Settles O25: the writes stop at the failed one, and the response to their result is FAIL. -/
theorem send8FailsAtTheFailedWrite : Obligations.Send8FailsAtTheFailedWrite := by
  intro rs v s k hk h
  obtain ⟨t, hrun, hevents, -, hanswers, -, hframe⟩ := writeAll_stops_at_failure (bs := transferBytes s.bl rs v) hk h
  have hexec : exec (.send8 0 rs v) s = .next (responded .fail 0 t) := by
    rw [exec_send8, hrun, respondResult_go (hframe.resets_nil h.1)]
    rfl
  refine ⟨_, hexec, ?_, hanswers, rfl, hframe.responded .fail 0⟩
  rw [responded_events, hevents]
  rfl

end Sys2Proof.Safety

/-! The command set statements (42_command_set.md): `cmd` and its delay, what a command does when a write fails, the
words and bytes of CLEAR and SETDDRAM, and when a command's response comes. -/

namespace Sys2Proof.Safety

open Sys2Proof.Machine

/-! ### The helper of the command set -/

/-- After a delay, what was left as it was still is, but for the timer, which a delay that is not 0 leaves idle (R213). -/
theorem Unchanged.afterDelay {s t : State} (h : Unchanged s t) (d : Nat) :
    Unchanged { s with timer := if d = 0 then s.timer else none } (afterDelay d t) := by
  obtain ⟨hbl, hinitState, hinitErr, htext, htimer, hparams, hrequests, hresets⟩ := h
  simp [Unchanged, *]

/-- cmd observes its delay after its writes and keeps their result (R130). -/
theorem cmd_of_writes {opc : Byte} {r : Bool} {s t : State} (d : Nat)
    (h : writeAll (transferBytes s.bl 0 opc) s = .go r t) (hr : t.resets = []) :
    cmd opc d s = .go r (afterDelay d t) := by
  rw [cmd_eq, h, Flow.bind_go, delay_eq hr, Flow.bind_go]

/-- Settles O23: whether the six writes are made or stop at the failed one, the delay follows. -/
theorem commandHelperWaitsAfterAFailureToo : Obligations.CommandHelperWaitsAfterAFailureToo := by
  refine fun opc d s => ⟨fun h => ?_, fun k hk h => ?_⟩
  · refine ⟨_, cmd_ok opc d h, ?_, ?_, ?_, (unchanged_landedAll _ s).afterDelay d⟩
    · rw [afterDelay_events, landedAll_events]
    · rw [afterDelay_answers, landedAll_answers, transferBytes_length]
    · rw [afterDelay_seq, landedAll_seq]
  · obtain ⟨t, hrun, hevents, -, hanswers, hseq, hframe⟩ :=
      writeAll_stops_at_failure (bs := transferBytes s.bl 0 opc) hk h
    refine ⟨_, cmd_of_writes d hrun (hframe.resets_nil h.1), ?_, ?_, ?_, hframe.afterDelay d⟩
    · rw [afterDelay_events, hevents]
    · rw [afterDelay_answers, hanswers]
    · rw [afterDelay_seq, hseq]

/-! ### A command with a failed write -/

/-- Settles O30: a command is one cmd, which observes its delay after the failure, and the response to its result is
FAIL. -/
theorem commandsFailAfterTheirDelay : Obligations.CommandsFailAfterTheirDelay := by
  intro i opc d s k hi hk h
  obtain ⟨-, hfail⟩ := commandHelperWaitsAfterAFailureToo opc d s
  obtain ⟨t, hcmd, hevents, hanswers, -, hframe⟩ := hfail k hk h
  have hexec : exec i s = .next (responded .fail 0 t) := by
    rw [exec_command hi, hcmd, respondResult_go (hframe.resets_nil h.1)]
    rfl
  refine ⟨_, hexec, ?_, hanswers, rfl, hframe.responded .fail 0⟩
  rw [responded_events, hevents]
  rfl

/-! ### The words and bytes of CLEAR and SETDDRAM -/

/-- A request whose opcode is of format F0 has one word, its encoding (R71, R75). -/
theorem OnlyWord.of_encode {i : Instr} {op : Nat} (henc : (encode i).toNat = 4096 * op)
    (hd : ∀ w, (opField w).toNat = op → decode w = decodeF0 i w) : OnlyWord (encode i) i := by
  refine OnlyWord.of_opcode henc hd fun w hw => ?_
  rw [← (decode_spells hw).2, opField_toNat, henc]
  omega

/-- Opcode 0x6 is CLEAR, in format F0 (R71, R72). -/
theorem decode_of_opcode_clear {w : Word} (hop : (opField w).toNat = 0x6) : decode w = decodeF0 .clear w := by
  simp only [decode, hop]

/-- Settles O31: CLEAR is the one word of its opcode, and of the command table, with `T_CLEAR_US` as its delay. -/
theorem clearWaitsTheConfiguredTime : Obligations.ClearWaitsTheConfiguredTime := by
  refine ⟨rfl, OnlyWord.of_encode (i := .clear) rfl fun _ => decode_of_opcode_clear, fun s h => ?_⟩
  obtain ⟨t, hexec, hevents, -⟩ := commandsComplete .clear 0x01 s.params.tClearUs s rfl h
  exact ⟨t, hexec, hevents⟩

/-- The word `0x9000 | ADDR` is that of SETDDRAM ADDR (R71, R72). -/
theorem encode_setddram (addr : BitVec 7) : encode (.setddram addr) = 0x9000 ||| addr.setWidth 16 := by
  revert addr; decide

/-- Of opcode 0x9, a word with a bit of 11:7 set is refused (R75). -/
theorem decode_error_of_reserved_setddram {w : Word} (hop : opField w = 0x9) (hres : w.extractLsb' 7 5 ≠ 0) :
    ∃ e, decode w = .error e := by
  rw [decode_of_opcode_setddram (by rw [hop]; rfl), decodeFDD, if_neg hres]
  exact ⟨.reservedBits, rfl⟩

/-- Settles O32: every address has its word and, in the command table, its byte `0x80 | ADDR` (`ddramByte_eq`). -/
theorem setddramSendsEveryAddress : Obligations.SetddramSendsEveryAddress := by
  refine ⟨rfl, fun addr => ?_, fun _ => decode_error_of_reserved_setddram, fun addr s h => ?_⟩
  · rw [← encode_setddram, decode_encode rfl]
  · have hcommand : command s.params (.setddram addr) = some (ddramByte addr, s.params.tCmdUs) := by
      rw [ddramByte_eq]
      rfl
    obtain ⟨t, hexec, hevents, -⟩ := commandsComplete _ _ _ s hcommand h
    exact ⟨t, hexec, hevents⟩

/-! ### When a command's response comes -/

/-- Writes that land add one entry each to the log. -/
theorem landedAll_log (bs : List Byte) (s : State) :
    ∃ ws, (landedAll bs s).log = s.log ++ ws ∧ ws.length = bs.length := by
  induction bs generalizing s with
  | nil => exact ⟨[], (List.append_nil _).symm, rfl⟩
  | cons b bs ih =>
    obtain ⟨ws, hlog, hlength⟩ := ih (landed b s)
    refine ⟨⟨.write s.params.slaveAddr b .ok, nextStart s, nextStart s + Config.writeUs s.free⟩ :: ws, ?_, ?_⟩
    · rw [landedAll, hlog, landed_log, List.append_assoc, List.singleton_append]
    · rw [List.length_cons, List.length_cons, hlength]

/-- A delay adds its event, if it has one, and ends at least its bound after it began (R250). -/
theorem afterDelay_log (d : Nat) (s : State) :
    ∃ ws, (afterDelay d s).log = s.log ++ ws ∧ ws.map Timed.event = waitEvents d ∧ s.now + d ≤ (afterDelay d s).now := by
  by_cases hd : d = 0
  · refine ⟨[], ?_, ?_, ?_⟩ <;> simp [afterDelay, waitEvents, hd]
  · refine ⟨[⟨.delay d, s.now, s.now + d + Config.excessUs s.free⟩], ?_, ?_, ?_⟩ <;>
      simp [afterDelay, waitEvents, hd]

/-- A byte transfer that lands adds six entries to the log, the last of them the low nibble's strobe byte with enable set,
which ended when the transfer did (R121). -/
theorem landedAll_transfer_log (rs : Line) (v : Byte) (s : State) :
    ∃ pre last, (landedAll (transferBytes s.bl rs v) s).log = s.log ++ pre ++ [last] ∧ (pre ++ [last]).length = 6 ∧
      last.event = .write s.params.slaveAddr (pinByte (v.extractLsb' 0 4) s.bl true rs) .ok ∧
      last.stop = (landedAll (transferBytes s.bl rs v) s).now := by
  have hsplit : landedAll (transferBytes s.bl rs v) s = landed (pinByte (v.extractLsb' 0 4) s.bl true rs)
      (landedAll ((transferBytes s.bl rs v).take 5) s) := rfl
  obtain ⟨pre, hlog, hlength⟩ := landedAll_log ((transferBytes s.bl rs v).take 5) s
  rw [hsplit, landed_log, hlog, landedAll_params]
  refine ⟨pre, _, rfl, ?_, rfl, rfl⟩
  rw [List.length_append, hlength]
  rfl

/-- Settles O33: the delay begins when the sixth write ended, and the response does not begin before the delay ended. -/
theorem commandResponseWaitsItsDelay : Obligations.CommandResponseWaitsItsDelay := by
  intro i opc d s hi h
  obtain ⟨pre, last, hwrites, hsix, hlast, hstop⟩ := landedAll_transfer_log 0 opc s
  obtain ⟨post, hdelay, hwait, hbound⟩ := afterDelay_log d (landedAll (transferBytes s.bl 0 opc) s)
  have hresponse := responded_log .ok 0 (afterDelay d (landedAll (transferBytes s.bl 0 opc) s))
  rw [hdelay, hwrites] at hresponse
  rw [← hstop] at hbound
  exact ⟨_, pre, last, post, _, exec_command_ok hi h, hresponse, hsix, hlast, hwait, rfl,
    hbound.trans (Nat.le_add_right _ _)⟩

end Sys2Proof.Safety

/-! The backlight statements (43_backlight.md): BLON and BLOFF each set the flag and then make one write, of a byte with
enable set. What the bus's answer leads to is said once, for both. -/

namespace Sys2Proof.Safety

open Sys2Proof.Machine

/-! ### The two words -/

/-- Opcode 0xA is BLON, in format F0 (R71, R72). -/
theorem decode_of_opcode_blon {w : Word} (hop : (opField w).toNat = 0xA) : decode w = decodeF0 .blon w := by
  simp only [decode, hop]

/-- Opcode 0xB is BLOFF, in format F0 (R71, R72). -/
theorem decode_of_opcode_bloff {w : Word} (hop : (opField w).toNat = 0xB) : decode w = decodeF0 .bloff w := by
  simp only [decode, hop]

/-! ### The one write and its answer -/

section BacklightWrite

variable {i : Instr} {bl : Bool} {b : Byte} {s : State}
  (hexec : exec i s = .next (respondResult (writeAll [b] (setBacklight bl s))))
include hexec

/-- Answered `ok`, the byte is on the pins; it has enable set, so it makes no latch (R108). -/
theorem exec_backlight_ok (hb : b.getLsbD 2 = true) (h : AllOk 1 s) : ∃ t, exec i s = .next t ∧
    t.events = s.events ++ [.write s.params.slaveAddr b .ok, .rsp 0x0000] ∧ t.pins = b ∧ t.latches = s.latches ∧
    t.answers = s.answers.drop 1 ∧ t.seq = .idle ∧ Unchanged { s with bl := bl } t := by
  have hrun : exec i s = .next (responded .ok 0 (landedAll [b] (setBacklight bl s))) := by
    rw [hexec, writeAll_ok (s := setBacklight bl s) [b] (h.congr rfl rfl), respondResult_go (by simpa using h.1)]
    rfl
  have hlatches : (landedAll [b] (setBacklight bl s)).latches = s.latches := by
    simp [landedAll, latchOf_enable_set hb]
  refine ⟨_, hrun, ?_, rfl, hlatches, landedAll_answers [b] _, rfl, (unchanged_landedAll [b] _).responded .ok 0⟩
  rw [responded_events, landedAll_events, List.append_assoc]
  rfl

/-- Answered `fail`, the write is the last event before the response FAIL, and the flag keeps its new value. -/
theorem exec_backlight_fail (h : AnsweredAt 0 .fail s) : ∃ t, exec i s = .next t ∧
    t.events = s.events ++ [.write s.params.slaveAddr b .fail, .rsp 0x0001] ∧
    t.answers = s.answers.drop 1 ∧ t.seq = .idle ∧ Unchanged { s with bl := bl } t := by
  obtain ⟨t, hwrite, hevents, -, hanswers, -, hframe⟩ :=
    writeAll_stops_at_failure (bs := [b]) (s := setBacklight bl s) Nat.one_pos (h.congr rfl rfl)
  have hrun : exec i s = .next (responded .fail 0 t) := by
    rw [hexec, hwrite, respondResult_go (hframe.resets_nil h.1)]
    rfl
  refine ⟨_, hrun, ?_, hanswers, rfl, hframe.responded .fail 0⟩
  rw [responded_events, hevents, List.append_assoc]
  rfl

end BacklightWrite

/-- Settles O34: 0xA000 is the encoding of BLON, which sets BL and writes 0x0C. -/
theorem backlightOnSetsFlagAndWrites : Obligations.BacklightOnSetsFlagAndWrites :=
  ⟨OnlyWord.of_encode (i := .blon) rfl fun _ => decode_of_opcode_blon, fun s =>
    ⟨exec_backlight_ok (exec_blon s) rfl, exec_backlight_fail (exec_blon s)⟩⟩

/-- Settles O35: 0xB000 is the encoding of BLOFF, which clears BL and writes 0x04. -/
theorem backlightOffClearsFlagAndWrites : Obligations.BacklightOffClearsFlagAndWrites :=
  ⟨OnlyWord.of_encode (i := .bloff) rfl fun _ => decode_of_opcode_bloff, fun s =>
    ⟨exec_backlight_ok (exec_bloff s) rfl, exec_backlight_fail (exec_bloff s)⟩⟩

end Sys2Proof.Safety

/-! The initialisation statements (44_init.md). INIT is its settle wait and then its steps, one for each row of the table
of R161; what the bus's answers lead to is said once for any split of the steps at the failed one. -/

namespace Sys2Proof.Safety

open Sys2Proof.Machine

/-! ### The word -/

/-- Opcode 0xC is INIT, in format F0 (R71, R72). -/
theorem decode_of_opcode_init {w : Word} (hop : (opField w).toNat = 0xC) : decode w = decodeF0 .init w := by
  simp only [decode, hop]

/-! ### Steps and rows -/

/-- The row of the table that a step of INIT is, at backlight flag `bl` (R160, R161). -/
def initRow (bl : Bool) (st : InitStep) : InitRow := ⟨InitAction.bytes bl st.sends, st.wait, st.enters⟩

theorem initRows_eq_map (bl : Bool) (p : Config.Params) : initRows bl p = (initSteps p).map (initRow bl) :=
  initRows_eq bl p

theorem initRow_bytes (bl : Bool) (steps : List InitStep) :
    (steps.map (initRow bl)).flatMap InitRow.bytes = stepsBytes bl steps := initRows_bytes bl steps

theorem initRow_waits (bl : Bool) (steps : List InitStep) :
    (steps.map (initRow bl)).map InitRow.wait = steps.map InitStep.wait := List.map_map

theorem afterSteps_rows (steps : List InitStep) (s : State) : (afterSteps steps s).events =
    s.events ++ initEvents s.params.slaveAddr (steps.map (initRow s.bl)) := afterSteps_events steps s

/-- A complete INIT makes 36 writes (R163). -/
theorem stepsBytes_initSteps_length (bl : Bool) (p : Config.Params) : (stepsBytes bl (initSteps p)).length = 36 := rfl

/-- The hardware's waits, with `T_CLEAR_US` left open (R163, R164). -/
theorem initRows_hardware_waits (bl : Bool) (t : Nat) :
    (initRows bl { Config.hardware with tClearUs := t }).map InitRow.wait = [4100, 100, 0, 0, 37, 37, t, 37] := rfl

/-- The first `j` steps enter the states 1 to `j` (R31, R162). -/
theorem initSteps_take_entered (p : Config.Params) {j : Nat} (hj : j < 8) :
    (((initSteps p).take j).getLast?.map InitStep.enters).getD 0 = BitVec.ofNat 4 j := by
  interval_cases j <;> rfl

/-- Of two waits, the timer is idle after the first that is not 0 (R213). -/
theorem timer_after_waits (a b : Nat) (timer : Option Nat) :
    (if b = 0 then (if a = 0 then timer else none) else none) = if a + b = 0 then timer else none := by
  by_cases ha : a = 0 <;> by_cases hb : b = 0 <;> simp [ha, hb]

/-! ### INIT completes -/

/-- INIT with every write answered `ok` runs all its steps, and then it is Ready. -/
theorem exec_init_ok {s : State} (h : AllOk 36 s) : exec .init s = .next (responded .ok 0 (enterInit 9
    (afterSteps (initSteps s.params) (afterDelay s.params.tPwrUs (beginInit s))))) := by
  rw [exec_init h.1, runInit_complete]
  rw [stepsBytes_initSteps_length]
  exact h.congr (by simp) (by simp)

/-- Settles O36: the fields of the state in which `exec_init_ok` ends, read off the laws of `afterSteps`. -/
theorem initCompletes : Obligations.InitCompletes := by
  refine ⟨OnlyWord.of_encode (i := .init) rfl fun _ => decode_of_opcode_init, fun _ _ => rfl,
    initRows_hardware_waits, rfl, rfl, fun bl => ?_, fun s h => ⟨_, exec_init_ok h, ?_⟩⟩
  · rw [initRows_hardware_waits, initRows_hardware_waits]
    exact ⟨rfl, rfl⟩
  · rw [initRows_eq_map, initRow_waits]
    refine ⟨?_, ?_, ?_, ?_, rfl, ?_, rfl, ?_, ?_, ?_, ?_, ?_, ?_⟩
    · rw [responded_events, enterInit_events, afterSteps_rows, afterDelay_events, afterDelay_bl, afterDelay_params]
      rfl
    · rw [responded_latches, enterInit_latches, afterSteps_latches, afterDelay_latches, beginInit_latches]
    · rw [responded_pins, enterInit_pins, afterSteps_pins, afterDelay_bl, beginInit_bl]
    · rw [responded_answers, enterInit_answers, afterSteps_answers, stepsBytes_initSteps_length, afterDelay_answers,
        beginInit_answers]
    · rw [responded_timer, enterInit_timer, afterSteps_timer, afterDelay_timer, timer_after_waits, beginInit_timer]
    all_goals simp

/-! ### INIT aborts -/

/-- INIT with a write of the step `st` the first answered `fail`: the steps before it, its writes up to that one and its
wait, then FAIL, with the state that the last complete step entered (R162, R164). -/
theorem exec_init_fail {s : State} {pre post : List InitStep} {st : InitStep} {k : Nat}
    (hsteps : initSteps s.params = pre ++ st :: post) (hk : k < (InitAction.bytes s.bl st.sends).length)
    (h : AnsweredAt ((stepsBytes s.bl pre).length + k) .fail s) : ∃ t, exec .init s = .next t ∧
      t.events = s.events ++ waitEvents s.params.tPwrUs ++ initEvents s.params.slaveAddr (pre.map (initRow s.bl)) ++
        writesUpTo s.params.slaveAddr (InitAction.bytes s.bl st.sends) k .fail ++ waitEvents st.wait ++ [.rsp 0x0001] ∧
      t.initErr = true ∧ t.initState = (pre.getLast?.map InitStep.enters).getD 0 ∧ t.seq = .idle ∧
      t.timer = (if s.params.tPwrUs + ((pre ++ [st]).map InitStep.wait).sum = 0 then s.timer else none) ∧
      t.bl = s.bl ∧ t.text = s.text ∧ t.params = s.params ∧ t.requests = s.requests ∧ t.resets = s.resets := by
  obtain ⟨b, hb⟩ := AnsweredAt.byte hk rfl
  have hbl : (afterDelay s.params.tPwrUs (beginInit s)).bl = s.bl := by simp
  have hanswered : AnsweredAt ((stepsBytes s.bl pre).length + k) .fail (afterDelay s.params.tPwrUs (beginInit s)) :=
    h.congr (by simp) (by simp)
  rw [writesUpTo_eq .fail hb, exec_init h.1, hsteps]
  rw [← hbl] at hb hanswered
  rw [runInit_fail pre post hb hanswered, hbl]
  refine ⟨_, rfl, ?_, rfl, ?_, rfl, ?_, ?_, ?_, ?_, ?_, ?_⟩
  · rw [responded_events, abortInit_events, afterDelay_events, disturb_events, recordWrite_events, landedAll_events,
      afterSteps_rows, afterDelay_events, hbl]
    simp only [landedAll_params, afterSteps_params, afterDelay_params, beginInit_params, beginInit_events,
      List.append_assoc]
    rfl
  · rw [responded_initState, abortInit_initState, afterDelay_initState, disturb_initState, recordWrite_initState,
      landedAll_initState, afterSteps_initState, afterDelay_initState, beginInit_initState]
  · rw [responded_timer, abortInit_timer, afterDelay_timer, disturb_timer, recordWrite_timer, landedAll_timer,
      afterSteps_timer, afterDelay_timer, timer_after_waits, timer_after_waits, beginInit_timer, List.map_append,
      List.sum_append, List.map_singleton, List.sum_singleton]
  all_goals simp

/-- The status byte of an aborted INIT with BL at 1 (R39, R164). -/
theorem statusByte_aborted {t : State} {j : Nat} (hj : j < 8) (hbl : t.bl = true) (herr : t.initErr = true)
    (hstate : t.initState = BitVec.ofNat 4 j) : statusByte t = 0x30 ||| BitVec.ofNat 8 j := by
  rw [statusByte, hbl, herr, hstate]
  interval_cases j <;> rfl

/-- Settles O37: row `j` is step `j` of INIT, and `exec_init_fail` splits the steps at it. -/
theorem initAbortsAtTheFailedStep : Obligations.InitAbortsAtTheFailedStep := by
  refine ⟨initRows_hardware_waits, rfl, fun s j k row hrow hk h => ?_⟩
  simp only [initRows_eq_map, ← List.map_take, initRow_bytes, initRow_waits] at hrow h ⊢
  rw [List.getElem?_map, Option.map_eq_some_iff] at hrow
  obtain ⟨st, hst, rfl⟩ := hrow
  obtain ⟨hj, hget⟩ := List.getElem?_eq_some_iff.mp hst
  have hsteps : initSteps s.params = (initSteps s.params).take j ++ st :: (initSteps s.params).drop (j + 1) := by
    rw [← hget, ← List.drop_eq_getElem_cons hj, List.take_append_drop]
  obtain ⟨t, hexec, hevents, herr, hstate, hseq, htimer, hbl, hframe⟩ := exec_init_fail hsteps hk h
  rw [initSteps_take_entered s.params hj] at hstate
  rw [← hget, List.take_append_getElem] at htimer
  exact ⟨t, hexec, hevents, herr, hstate, fun hon => statusByte_aborted hj (hbl.trans hon) herr hstate, hseq, htimer,
    hbl, hframe⟩

end Sys2Proof.Safety

/-! The text statements (45_text_print.md): LDTXT, and what PRINT does with the text, with a failed write, and with the
bytes past the terminator. -/

namespace Sys2Proof.Machine

/-! ### Two states with the same inputs to come -/

/-- The reset input, the bus's answers and the free values to come are the same. -/
def SameInputs (s t : State) : Prop := t.resets = s.resets ∧ t.answers = s.answers ∧ t.free = s.free

theorem SameInputs.answer {s t : State} (h : SameInputs s t) (rs : List Nat) :
    answer { t with resets := rs } = answer { s with resets := rs } := by
  obtain ⟨-, hanswers, hfree⟩ := h
  simp only [Machine.answer, hanswers, hfree]

/-- An opportunity for the reset input is taken in both states or in neither, and leaves the same input
(`resetTaken_cases` for two states). -/
theorem resetTaken_cases_both {s t : State} (h : t.resets = s.resets) :
    (∃ rs, rs.length = s.resets.length ∧ resetTaken s = (false, { s with resets := rs }) ∧
      resetTaken t = (false, { t with resets := rs })) ∨
    (∃ rs, rs.length + 1 = s.resets.length ∧ resetTaken s = (true, { s with resets := rs }) ∧
      resetTaken t = (true, { t with resets := rs })) := by
  unfold resetTaken
  rw [h]
  split
  · exact .inl ⟨s.resets, rfl, rfl, by rw [← h]⟩
  · exact .inr ⟨_, by simp [*], rfl, rfl⟩
  · exact .inl ⟨_, by simp [*], rfl, rfl⟩

/-- A transport write ends in the same way in both states (`transportWrite_cases` for two states). -/
theorem transportWrite_cases_both (b : Byte) {s t : State} (h : SameInputs s t) :
    (∃ rs, rs.length = s.resets.length ∧
      ((transportWrite b s = .go true (landed b { s with resets := rs }) ∧
          transportWrite b t = .go true (landed b { t with resets := rs })) ∨
       (transportWrite b s = .go false (disturb (recordWrite b .fail { s with resets := rs })) ∧
          transportWrite b t = .go false (disturb (recordWrite b .fail { t with resets := rs }))) ∨
       (transportWrite b s = .stop (disturb (recordOpenWrite b .unanswered { s with resets := rs })) ∧
          transportWrite b t = .stop (disturb (recordOpenWrite b .unanswered { t with resets := rs }))))) ∨
    (∃ rs, rs.length + 1 = s.resets.length ∧
      ((transportWrite b s = .stop (takeReset { s with resets := rs }) ∧
          transportWrite b t = .stop (takeReset { t with resets := rs })) ∨
       (transportWrite b s = .stop (takeReset (disturb (recordOpenWrite b .cut { s with resets := rs }))) ∧
          transportWrite b t = .stop (takeReset (disturb (recordOpenWrite b .cut { t with resets := rs })))))) := by
  obtain ⟨rs, hl, hs, ht⟩ | ⟨rs, hl, hs, ht⟩ := resetTaken_cases_both h.1
  · obtain ⟨rs', hl', hs', ht'⟩ | ⟨rs', hl', hs', ht'⟩ :=
      resetTaken_cases_both (s := { s with resets := rs }) (t := { t with resets := rs }) rfl
    · refine .inl ⟨rs', hl'.trans hl, ?_⟩
      have hanswer := h.answer rs'
      cases ha : answer { s with resets := rs' } with
      | ok => exact .inl (by simp [transportWrite, hs, hs', ht, ht', hanswer, ha])
      | fail => exact .inr (.inl (by simp [transportWrite, hs, hs', ht, ht', hanswer, ha]))
      | never => exact .inr (.inr (by simp [transportWrite, hs, hs', ht, ht', hanswer, ha]))
    · exact .inr ⟨rs', hl'.trans hl, .inr (by simp [transportWrite, hs, hs', ht, ht'])⟩
  · exact .inr ⟨rs, hl, .inl (by simp [transportWrite, hs, ht])⟩

/-- A delay ends in the same way in both states (`delay_cases` for two states). -/
theorem delay_cases_both (d : Nat) {s t : State} (h : t.resets = s.resets) :
    (d = 0 ∧ delay d s = .go () s ∧ delay d t = .go () t) ∨
    (∃ rs, rs.length = s.resets.length ∧ delay d s = .go () (waited d { s with resets := rs }) ∧
      delay d t = .go () (waited d { t with resets := rs })) ∨
    (∃ rs, rs.length + 1 = s.resets.length ∧ delay d s = .stop (takeReset { s with resets := rs }) ∧
      delay d t = .stop (takeReset { t with resets := rs })) := by
  by_cases hd : d = 0
  · exact .inl ⟨hd, by simp [delay, hd], by simp [delay, hd]⟩
  · obtain ⟨rs, hl, hs, ht⟩ | ⟨rs, hl, hs, ht⟩ :=
      resetTaken_cases_both (s := { s with timer := some d }) (t := { t with timer := some d }) h
    · exact .inr (.inl ⟨rs, hl, by simp [delay, hd, hs, waited], by simp [delay, hd, ht, waited]⟩)
    · exact .inr (.inr ⟨rs, hl, by simp [delay, hd, hs, takeReset], by simp [delay, hd, ht, takeReset]⟩)

/-- A response is given in both states or in neither (`respond_cases` for two states). -/
theorem respond_cases_both (c : Code) (d : Byte) {s t : State} (h : t.resets = s.resets) :
    (∃ rs, rs.length = s.resets.length ∧ respond c d s = responded c d { s with resets := rs } ∧
      respond c d t = responded c d { t with resets := rs }) ∨
    (∃ rs, rs.length + 1 = s.resets.length ∧ respond c d s = takeReset { s with resets := rs } ∧
      respond c d t = takeReset { t with resets := rs }) := by
  obtain ⟨rs, hl, hs, ht⟩ | ⟨rs, hl, hs, ht⟩ := resetTaken_cases_both h
  · exact .inl ⟨rs, hl, by simp [respond, hs], by simp [respond, ht]⟩
  · exact .inr ⟨rs, hl, by simp [respond, hs], by simp [respond, ht]⟩

end Sys2Proof.Machine

namespace Sys2Proof.Safety

open Sys2Proof.Machine

/-! ### LDTXT -/

/-- LDTXT with no reset asserted answers OK at once (R180). -/
theorem exec_ldtxt (idx : BitVec 4) (byte : Byte) {s : State} (hr : s.resets = []) :
    exec (.ldtxt idx byte) s = .next (responded .ok 0 (storeText idx byte s)) :=
  congrArg Host.Outcome.next (respond_quiet (s := storeText idx byte s) hr)

/-- Settles O38: format FLT refuses no word, and of the state only the buffer is written, by one `Memory.write`. -/
theorem ldtxtStoresOneByte : Obligations.LdtxtStoresOneByte := by
  refine ⟨fun w hop => decode_of_opcode_ldtxt (by rw [hop]; rfl), fun idx byte s hr hwf => ?_⟩
  have hread : ∀ a, Memory.read (Memory.write s.text idx.toNat byte) a =
      if idx.toNat = a then byte else Memory.read s.text a := fun a => Memory.read_write s.text _ _ a hwf
  refine ⟨_, exec_ldtxt idx byte hr, responded_events .ok 0 (storeText idx byte s), ?_, fun a ha => ?_, rfl, rfl, rfl,
    rfl, rfl, rfl, rfl, rfl, rfl, rfl, rfl⟩
  · rw [responded_text, storeText_text, hread, if_pos rfl]
  · rw [responded_text, storeText_text, hread, if_neg (Ne.symm ha)]

/-! ### PRINT -/

/-- Opcode 0xE is PRINT, in format F0 (R71, R72). -/
theorem decode_of_opcode_print {w : Word} (hop : (opField w).toNat = 0xE) : decode w = decodeF0 .print w := by
  simp only [decode, hop]

/-- A response word is its data byte and a byte that holds the code (R80). -/
theorem responseWord_bytes (c : Code) (d : Byte) : responseWord c d = d ++ c.bits.setWidth 8 := by
  refine BitVec.eq_of_toNat_eq ?_
  rw [responseWord, append_toNat, append_toNat, append_toNat]
  cases c <;> simp [Code.bits] <;> omega

theorem printedText_length_le (s : State) : (printedText s).length ≤ s.params.textLen := by
  rw [printedText_eq]
  exact charsFrom_length_le s.text s.params.textLen 0

/-- PRINT with every write answered `ok` (R181). -/
theorem exec_print_ok {s : State} (h : AllOk (6 * (printedText s).length) s) :
    exec .print s = .next (responded .ok (BitVec.ofNat 8 (printedText s).length)
      (landedAll (textBytes s.bl (printedText s)) s)) := by
  rw [printedText_eq] at h ⊢
  have hloop := printFrom_ok s.params.textLen 0 h
  rw [Nat.zero_add] at hloop
  exact congrArg Host.Outcome.next hloop

/-- PRINT with its write number `m`, of the byte `b`, the first answered `fail` (R182). -/
theorem exec_print_fail {s : State} {m : Nat} {b : Byte} (hb : (textBytes s.bl (printedText s))[m]? = some b)
    (h : AnsweredAt m .fail s) : exec .print s = .next (responded .fail (BitVec.ofNat 8 (m / 6))
      (disturb (recordWrite b .fail (landedAll ((textBytes s.bl (printedText s)).take m) s)))) := by
  rw [printedText_eq] at hb ⊢
  have hloop := printFrom_fail s.params.textLen 0 hb h
  rw [Nat.zero_add] at hloop
  exact congrArg Host.Outcome.next hloop

/-- Settles O39: 0xE000 is the encoding of PRINT, and the rest are the fields of the states in which `exec_print_ok` and
`exec_print_fail` end. -/
theorem printSendsTheTextAndAnswersTheCount : Obligations.PrintSendsTheTextAndAnswersTheCount := by
  refine ⟨OnlyWord.of_encode (i := .print) rfl fun _ => decode_of_opcode_print, fun s => ⟨fun h => ?_, fun m hm h => ?_,
    textBytes_length _ _, printedText_length_le s, rfl⟩⟩
  · refine ⟨_, exec_print_ok h, ?_, landedAll_text_latches _ _ s, ?_, rfl, (unchanged_landedAll _ s).responded .ok _⟩
    · rw [responded_events, landedAll_events, responseWord_bytes]
      rfl
    · rw [responded_answers, landedAll_answers, textBytes_length]
  · have hlength := textBytes_length s.bl (printedText s)
    obtain ⟨b, hb⟩ := AnsweredAt.byte hm hlength
    refine ⟨_, exec_print_fail hb h, ?_, answers_after_write _ (hlength ▸ hm) s, rfl,
      (unchanged_failedWrite b _ s).responded .fail _⟩
    rw [responded_events, disturb_events, recordWrite_events, landedAll_events, landedAll_params, responseWord_bytes,
      writesUpTo_eq .fail hb, List.append_assoc s.events]
    rfl

/-! ### PRINT from two buffers -/

/-- The states differ in the text buffer alone, `a` in the one and `b` in the other, and `n` assertions of the reset
input are to come. -/
def OtherText (a b : Memory) (n : Nat) (s t : State) : Prop :=
  s.resets.length = n ∧ s.text = a ∧ t = { s with text := b }

/-- Unless a reset has taken effect since there were `n` assertions to come, the states differ in the text buffer alone. -/
def OtherTextUnlessReset (b : Memory) (n : Nat) (s t : State) : Prop :=
  s.resets.length = n → t = { s with text := b }

/-- Once an assertion of the reset input is used up, nothing is claimed. -/
theorem otherTextUnlessReset_of_lt {b : Memory} {n : Nat} {s t : State} (h : s.resets.length < n) :
    OtherTextUnlessReset b n s t := fun hn => absurd hn h.ne

/-- A transport write does not look at the text buffer. -/
theorem transportWrite_otherText {a b : Memory} {n : Nat} (v : Byte) {s t : State} (h : OtherText a b n s t) :
    Flow.Rel (OtherText a b n) (OtherTextUnlessReset b n) (transportWrite v s) (transportWrite v t) := by
  obtain ⟨hn, ha, rfl⟩ := h
  have hinputs : SameInputs s { s with text := b } := ⟨rfl, rfl, rfl⟩
  obtain ⟨rs, hl, ⟨hs, ht⟩ | ⟨hs, ht⟩ | ⟨hs, ht⟩⟩ | ⟨rs, hl, ⟨hs, ht⟩ | ⟨hs, ht⟩⟩ :=
    transportWrite_cases_both v hinputs <;> rw [hs, ht]
  · exact ⟨rfl, hl.trans hn, ha, rfl⟩
  · exact ⟨rfl, hl.trans hn, ha, rfl⟩
  · exact fun _ => rfl
  · exact otherTextUnlessReset_of_lt (hl.trans hn).le
  · exact otherTextUnlessReset_of_lt (hl.trans hn).le

/-- A delay does not look at the text buffer. -/
theorem delay_otherText {a b : Memory} {n : Nat} (d : Nat) {s t : State} (h : OtherText a b n s t) :
    Flow.Rel (OtherText a b n) (OtherTextUnlessReset b n) (delay d s) (delay d t) := by
  obtain ⟨hn, ha, rfl⟩ := h
  obtain ⟨_, hs, ht⟩ | ⟨rs, hl, hs, ht⟩ | ⟨rs, hl, hs, ht⟩ :=
    delay_cases_both d (s := s) (t := { s with text := b }) rfl <;> rw [hs, ht]
  · exact ⟨rfl, hn, ha, rfl⟩
  · exact ⟨rfl, hl.trans hn, ha, rfl⟩
  · exact otherTextUnlessReset_of_lt (hl.trans hn).le

/-- A response does not look at the text buffer. -/
theorem respond_otherText {a b : Memory} {n : Nat} (c : Code) (d : Byte) {s t : State} (h : OtherText a b n s t) :
    OtherTextUnlessReset b n (respond c d s) (respond c d t) := by
  obtain ⟨hn, -, rfl⟩ := h
  obtain ⟨rs, hl, hs, ht⟩ | ⟨rs, hl, hs, ht⟩ :=
    respond_cases_both c d (s := s) (t := { s with text := b }) rfl <;> rw [hs, ht]
  · exact fun _ => rfl
  · exact otherTextUnlessReset_of_lt (hl.trans hn).le

theorem simulation_otherText (a b : Memory) (n : Nat) : Simulation (OtherText a b n) (OtherTextUnlessReset b n) where
  write v _ _ := transportWrite_otherText v
  delay d _ _ := delay_otherText d
  respond c d _ _ := respond_otherText c d
  bl := by
    rintro s _ ⟨-, -, rfl⟩
    rfl

/-- Settles O40: buffers that agree up to a terminator hold the same characters (`charsFrom_congr`), and no primitive
looks at the buffer (`simulation_otherText`). -/
theorem printReadsNothingPastTheTerminator : Obligations.PrintReadsNothingPastTheTerminator := by
  rintro s t m ⟨z, hz, hagree⟩ h hresets
  cases h
  have hchars : charsFrom m s.params.textLen 0 = charsFrom s.text s.params.textLen 0 :=
    charsFrom_congr hz hagree _ 0 (Nat.zero_le z)
  have htexts : ∀ u v, OtherText s.text m s.resets.length u v → u.text = s.text ∧ v.text = m := by
    rintro u _ ⟨-, ha, rfl⟩
    exact ⟨ha, rfl⟩
  have hstart : OtherText s.text m s.resets.length s { s with text := m } := ⟨rfl, rfl, rfl⟩
  have hloop := (simulation_otherText s.text m s.resets.length).printFrom htexts s.params.textLen 0 hchars hstart
  exact congrArg Host.Outcome.next (hloop hresets)

end Sys2Proof.Safety

/-! The status statement (46_status.md): where the bits of the status byte stand, and STATUS, which only answers. -/

namespace Sys2Proof.Safety

open Sys2Proof.Machine

/-! ### The status byte -/

/-- Bits 3:0 are INIT_STATE (R39). -/
theorem statusByte_initState (s : State) : (statusByte s).extractLsb' 0 4 = s.initState :=
  BitVec.extractLsb'_append_eq_right

/-- Bit 4 is INIT_ERR (R39). -/
theorem statusByte_initErr (s : State) : (statusByte s).getLsbD 4 = s.initErr := by
  rw [statusByte, BitVec.getLsbD_append, BitVec.getLsbD_append]
  simp

/-- Bit 5 is BL (R39). -/
theorem statusByte_bl (s : State) : (statusByte s).getLsbD 5 = s.bl := by
  rw [statusByte, BitVec.getLsbD_append, BitVec.getLsbD_append, BitVec.getLsbD_append]
  simp

/-! ### STATUS -/

theorem Unchanged.refl (s : State) : Unchanged s s := ⟨rfl, rfl, rfl, rfl, rfl, rfl, rfl, rfl⟩

/-- Opcode 0xF is STATUS, in format F0 (R71, R72). -/
theorem decode_of_opcode_status {w : Word} (hop : (opField w).toNat = 0xF) : decode w = decodeF0 .status w := by
  simp only [decode, hop]

/-- STATUS with no reset asserted answers OK at once, with the status byte of the state it is in (R190). -/
theorem exec_status {s : State} (hr : s.resets = []) :
    exec .status s = .next (responded .ok (statusByte s) s) :=
  congrArg Host.Outcome.next (respond_quiet hr)

/-- Settles O41: 0xF000 is the encoding of STATUS, the fields of the status byte are read off its definition, and the
rest are the fields of the state in which `exec_status` ends. -/
theorem statusAnswersTheStatusByte : Obligations.StatusAnswersTheStatusByte := by
  refine ⟨OnlyWord.of_encode (i := .status) rfl fun _ => decode_of_opcode_status, fun s =>
    ⟨statusByte_initState s, statusByte_initErr s, statusByte_bl s, statusByte_top s⟩, fun s hr =>
    ⟨_, exec_status hr, ?_, rfl, rfl, rfl, rfl, (Unchanged.refl s).responded .ok (statusByte s)⟩⟩
  rw [responded_events, responseWord_bytes]
  rfl

end Sys2Proof.Safety

/-! The exceptions statements (60_exceptions.md): the words that are refused and their answer, an IDLE bridge with nothing
to do, the requests that cannot fail, and the writes of every other request up to a failed one. -/

namespace Sys2Proof

/-! ### The words that are refused -/

theorem refused_iff_not_legal (w : Word) : (∃ e, decode w = .error e) ↔ legal w = false := by
  cases hd : decode w with
  | ok i => simp [legal_of_decode hd]
  | error e => simp [not_legal_of_decode hd]

/-- Settles O4: the causes are the ways in which the legality test of R73 fails, opcode by opcode. -/
theorem illegalWordsHaveOneOfThreeCauses : Obligations.IllegalWordsHaveOneOfThreeCauses := by
  intro w
  have hopcode : ∀ op : BitVec 4, opField w = op ↔ (w.extractLsb' 12 4).toNat = op.toNat := fun _ => BitVec.toNat_eq
  rw [refused_iff_not_legal]
  simp only [hopcode, ne_eq]
  unfold legal
  generalize (w.extractLsb' 12 4).toNat = op
  split
  case h_1 | h_2 => simp
  case h_3 => simp [imp_iff_not_or]
  case h_4 | h_5 => simp
  case h_6 =>
    simp only [imp_false] at *
    simp [*]

end Sys2Proof

namespace Sys2Proof.Safety

open Sys2Proof.Machine

/-- A word that is not legal is answered ILLEGAL (R202). -/
theorem execWord_of_not_legal {w : Word} {s : State} (hw : legal w = false) (hr : s.resets = []) :
    execWord w s = .next (responded .illegal 0 s) := by
  obtain ⟨e, he⟩ := (refused_iff_not_legal w).mpr hw
  simp only [execWord, he, raiseIllegal, respond_quiet hr]

/-- Settles O10: the step accepts the word and answers it, which changes the port and the event sequence alone. -/
theorem illegalWordIsOnlyAnswered : Obligations.IllegalWordIsOnlyAnswered := by
  intro s w rest hq hr hw hillegal
  have hstep : step s = .next (responded .illegal 0 (takeRequest w rest s)) :=
    (step_idle_accept hq hr hw).trans (execWord_of_not_legal hillegal hr)
  have hevents : (responded .illegal 0 (takeRequest w rest s)).events = s.events ++ [.req w, .rsp 0x0002] := by
    rw [responded_events, takeRequest_events, List.append_assoc]
    rfl
  exact ⟨_, hstep, hevents, rfl, rfl, rfl, rfl, rfl, rfl, rfl, rfl, rfl, rfl, rfl, rfl⟩

/-! ### An IDLE bridge with no request, and requests that cannot fail -/

/-- Settles O11: the step of such a bridge changes nothing, so no number of steps does. -/
theorem idleBridgeWaits : Obligations.IdleBridgeWaits := fun n _ hq hw hr =>
  run_of_step_fixed (step_idle_quiet hq hr hw) n

/-- Settles O9: every arm of `exec` answers a next state. -/
theorem everyRequestHasANextState : Obligations.EveryRequestHasANextState := by
  intro i s
  cases i <;> exact ⟨_, rfl⟩

/-- An OK response adds its event, or a reset comes before it and adds the mark. -/
theorem respond_ok_events (d : Byte) (s : State) :
    (respond .ok d s).events = s.events ++ [.rsp (d ++ 0x00#8)] ∨ (respond .ok d s).events = s.events ++ [.reset] := by
  obtain ⟨rs, -, h⟩ | ⟨rs, -, h⟩ := respond_cases .ok d s <;> rw [h]
  · rw [responded_events, responseWord_bytes]
    exact .inl rfl
  · exact .inr (takeReset_events _)

/-- Settles O45: each of the two requests is one OK response, in a state with the same events. -/
theorem ldtxtAndStatusCannotFail : Obligations.LdtxtAndStatusCannotFail := by
  rintro i s t (rfl | ⟨idx, byte, rfl⟩) h
  · cases h
    exact (respond_ok_events (statusByte s) s).imp_left fun h => ⟨_, h⟩
  · cases h
    exact (respond_ok_events 0 (storeText idx byte s)).imp_left fun h => ⟨_, h⟩

/-! ### Every request as its writes -/

/-- These bytes in order until one is not answered `ok`, then in either case the wait of `d` µs. -/
def writesThenWait (bs : List Byte) (d : Nat) (s : State) : Flow Bool :=
  (writeAll bs s).bind fun r s => (delay d s).bind fun _ s => .go r s

theorem writesThenWait_zero (bs : List Byte) (s : State) : writesThenWait bs 0 s = writeAll bs s := by
  unfold writesThenWait
  cases writeAll bs s <;> rfl

/-- The state with the flag as `i` sets it before anything else; only BLON and BLOFF do (R25). -/
def withFlag (i : Instr) (s : State) : State :=
  setBacklight (if i = .blon then true else if i = .bloff then false else s.bl) s

/-- The wait after the writes of `i`: the post-delay of a command (R130), and for any other request none. -/
def waitAfter (p : Config.Params) (i : Instr) : Nat := ((command p i).map Prod.snd).getD 0

theorem exec_command_eq {i : Instr} {opc : Byte} {d : Nat} {s : State} (h : command s.params i = some (opc, d)) :
    exec i s = .next (respondResult (writesThenWait (transferBytes s.bl 0 opc) d s)) := by
  rw [exec_command h, cmd_eq]
  rfl

/-- A well-formed request other than INIT, PRINT, LDTXT and STATUS is one run of its bytes, its wait, and the response
to the result of the writes. -/
theorem exec_cases {i : Instr} (hi : i.wellFormed = true) :
    (∀ s, exec i s = .next (respondResult (writesThenWait (requestBytes s i) (waitAfter s.params i) (withFlag i s)))) ∨
      i = .init ∨ i = .print ∨ (∃ idx byte, i = .ldtxt idx byte) ∨ i = .status := by
  cases i with
  | init => exact .inr (.inl rfl)
  | print => exact .inr (.inr (.inl rfl))
  | ldtxt idx byte => exact .inr (.inr (.inr (.inl ⟨idx, byte, rfl⟩)))
  | status => exact .inr (.inr (.inr (.inr rfl)))
  | send8 rw rs v =>
    obtain rfl : rw = 0 := by simpa [Instr.wellFormed] using hi
    exact .inl fun s => (exec_send8 rs v s).trans (by rw [← writesThenWait_zero]; rfl)
  | blon => exact .inl fun s => (exec_blon s).trans (by rw [← writesThenWait_zero]; rfl)
  | bloff => exact .inl fun s => (exec_bloff s).trans (by rw [← writesThenWait_zero]; rfl)
  | _ => exact .inl fun s => exec_command_eq rfl

/-- A request that is not well formed asks SEND8 to read, and is only answered (R123). -/
theorem exec_not_wellFormed {i : Instr} (hi : ¬i.wellFormed = true) (s : State) :
    exec i s = .next (raiseIllegal s) := by
  cases i with
  | send8 rw rs v =>
    have hrw : rw ≠ 0 := fun h => hi (by rw [h]; rfl)
    simp only [exec, execSend8, if_neg hrw]
  | _ => exact absurd rfl hi

/-- Write number `k` of INIT is write number `m` of a step, after all writes of the steps before it. -/
theorem init_writes_split {s : State} {k : Nat} (hk : k < (requestBytes s .init).length) :
    ∃ pre st post m, initSteps s.params = pre ++ st :: post ∧ m < (InitAction.bytes s.bl st.sends).length ∧
      k = (stepsBytes s.bl pre).length + m ∧ ∀ e, writesUpTo s.params.slaveAddr (requestBytes s .init) k e =
        okWrites s.params.slaveAddr (stepsBytes s.bl pre) ++
          writesUpTo s.params.slaveAddr (InitAction.bytes s.bl st.sends) m e := by
  obtain ⟨pre, st, post, m, hsteps, hm, rfl⟩ := stepsBytes_split s.bl (initSteps s.params) hk
  have hbytes : requestBytes s .init = stepsBytes s.bl (pre ++ st :: post) := congrArg (stepsBytes s.bl) hsteps
  refine ⟨pre, st, post, m, hsteps, hm, rfl, fun e => ?_⟩
  rw [hbytes, writesUpTo_steps _ _ _ post e hm]

/-! ### The writes among some events -/

/-- Of the events `es`, the writes are `ws` and none is a response. -/
structure WritesAre (es ws : List Event) : Prop where
  writes : es.filter isWrite = ws
  noResponse : ∀ e ∈ es, ∀ r, e ≠ .rsp r

theorem WritesAre.append {es fs ws xs : List Event} (h : WritesAre es ws) (h' : WritesAre fs xs) :
    WritesAre (es ++ fs) (ws ++ xs) where
  writes := by rw [List.filter_append, h.writes, h'.writes]
  noResponse e he := (List.mem_append.mp he).elim (h.noResponse e) (h'.noResponse e)

/-- Writes are no responses. -/
theorem WritesAre.of_writes {ws : List Event} (h : ws.filter isWrite = ws) : WritesAre ws ws where
  writes := h
  noResponse e he r hr := by
    have hwrite : isWrite e = true := List.filter_eq_self.mp h e he
    rw [hr] at hwrite
    cases hwrite

theorem writesAre_nil : WritesAre [] [] := .of_writes rfl

theorem writesAre_okWrites (addr : BitVec 7) (bs : List Byte) : WritesAre (okWrites addr bs) (okWrites addr bs) :=
  .of_writes (filter_okWrites addr bs)

theorem writesAre_writesUpTo (addr : BitVec 7) (bs : List Byte) (k : Nat) (e : WriteEnd) :
    WritesAre (writesUpTo addr bs k e) (writesUpTo addr bs k e) := .of_writes (filter_writesUpTo addr bs k e)

theorem writesAre_waitEvents (d : Nat) : WritesAre (waitEvents d) [] where
  writes := filter_waitEvents d
  noResponse e he r hr := by
    subst hr
    unfold waitEvents at he
    split at he <;> simp at he

/-- Complete steps of INIT. -/
theorem writesAre_initEvents (addr : BitVec 7) (bl : Bool) (steps : List InitStep) :
    WritesAre (initEvents addr (steps.map (initRow bl))) (okWrites addr (stepsBytes bl steps)) := by
  induction steps with
  | nil => exact writesAre_nil
  | cons st steps ih =>
    have hrow := (writesAre_okWrites addr (InitAction.bytes bl st.sends)).append (writesAre_waitEvents st.wait)
    rw [stepsBytes_cons, okWrites_append]
    simpa [initEvents, initRow] using hrow.append ih

/-- Complete steps of INIT, after its settle wait. -/
theorem writesAre_init (p : Config.Params) (bl : Bool) (steps : List InitStep) :
    WritesAre (waitEvents p.tPwrUs ++ initEvents p.slaveAddr (steps.map (initRow bl)))
      (okWrites p.slaveAddr (stepsBytes bl steps)) :=
  (writesAre_waitEvents p.tPwrUs).append (writesAre_initEvents p.slaveAddr bl steps)

/-! ### Requests with a failed write -/

/-- From `s` the request `i` makes the writes `ws` and then ends with its one response, of code `c`. -/
def AnswersAfter (i : Instr) (s : State) (c : Code) (ws : List Event) : Prop :=
  ∃ t es r, exec i s = .next t ∧ t.events = s.events ++ es ++ [.rsp r] ∧ r.extractLsb' 0 8 = c.bits.setWidth 8 ∧
    es.filter isWrite = ws ∧ (∀ e ∈ es, ∀ r, e ≠ .rsp r) ∧ t.seq = .idle

theorem AnswersAfter.of_responded {i : Instr} {s u : State} {c : Code} {d : Byte} {es ws : List Event}
    (hexec : exec i s = .next (responded c d u)) (hevents : u.events = s.events ++ es) (hes : WritesAre es ws) :
    AnswersAfter i s c ws :=
  ⟨_, es, _, hexec, by rw [responded_events, hevents], responseWord_code c d, hes.writes, hes.noResponse, rfl⟩

/-- After a run of writes that goes on comes its wait, then the response to its result. -/
theorem AnswersAfter.of_writeAll {i : Instr} {s u v : State} {bs : List Byte} {d : Nat} {r : Bool} {ws : List Event}
    (hexec : exec i s = .next (respondResult (writesThenWait bs d u))) (hwrite : writeAll bs u = .go r v)
    (hr : v.resets = []) (hevents : v.events = s.events ++ ws) (hws : WritesAre ws ws) :
    AnswersAfter i s (Code.ofResult r) ws := by
  have hrun : exec i s = .next (responded (Code.ofResult r) 0 (afterDelay d v)) := by
    rw [hexec, writesThenWait, hwrite, Flow.bind_go, delay_eq hr, Flow.bind_go, respondResult_go (by simpa using hr)]
  refine .of_responded hrun ?_ (List.append_nil ws ▸ hws.append (writesAre_waitEvents d))
  rw [afterDelay_events, hevents, List.append_assoc]

/-- The steps of INIT before the failed one are complete (R164). -/
theorem init_answers_fail {s : State} {k : Nat} (hk : k < (requestBytes s .init).length) (h : AnsweredAt k .fail s) :
    AnswersAfter .init s .fail (writesUpTo s.params.slaveAddr (requestBytes s .init) k .fail) := by
  obtain ⟨pre, st, post, m, hsteps, hm, rfl, hwrites⟩ := init_writes_split hk
  obtain ⟨t, hexec, hevents, -, -, hseq, -⟩ := exec_init_fail hsteps hm h
  have hes := ((writesAre_init s.params s.bl pre).append
    (writesAre_writesUpTo s.params.slaveAddr (InitAction.bytes s.bl st.sends) m .fail)).append
    (writesAre_waitEvents st.wait)
  rw [List.append_nil, ← hwrites] at hes
  exact ⟨t, _, 0x0001, hexec, by simp only [hevents, List.append_assoc], rfl, hes.writes, hes.noResponse, hseq⟩

theorem print_answers_fail {s : State} {k : Nat} (hk : k < (requestBytes s .print).length) (h : AnsweredAt k .fail s) :
    AnswersAfter .print s .fail (writesUpTo s.params.slaveAddr (requestBytes s .print) k .fail) := by
  obtain ⟨b, hb⟩ := AnsweredAt.byte hk rfl
  refine .of_responded (exec_print_fail hb h) ?_ (writesAre_writesUpTo _ _ _ _)
  rw [writesUpTo_eq .fail hb, disturb_events, recordWrite_events, landedAll_events, landedAll_params, List.append_assoc]
  rfl

/-- A request whose write number `k` is the first answered `fail` makes no write after it and answers FAIL. -/
theorem answers_fail {i : Instr} {s : State} {k : Nat} (hi : i.wellFormed = true) (hk : k < (requestBytes s i).length)
    (h : AnsweredAt k .fail s) :
    AnswersAfter i s .fail (writesUpTo s.params.slaveAddr (requestBytes s i) k .fail) := by
  obtain hrun | rfl | rfl | ⟨idx, byte, rfl⟩ | rfl := exec_cases hi
  · obtain ⟨t, hwrite, hevents, -, -, -, hframe⟩ :=
      writeAll_stops_at_failure (s := withFlag i s) hk (h.congr rfl rfl)
    exact .of_writeAll (hrun s) hwrite (hframe.resets_nil h.1) hevents (writesAre_writesUpTo _ _ _ _)
  · exact init_answers_fail hk h
  · exact print_answers_fail hk h
  · cases hk
  · cases hk

/-- Settles O47: a failed write ends the request's run of writes, a step of INIT or a character of PRINT, and FAIL is
answered to each; LDTXT and STATUS have no write. -/
theorem failedWriteIsTheLastWrite : Obligations.FailedWriteIsTheLastWrite := fun _ _ _ hi hk h =>
  answers_fail hi hk h

end Sys2Proof.Safety

/-! The reset and hazard statements (70_reset_and_hazards.md): reset at a hang and inside a request, every request with
its writes answered `ok` or with one never answered, and that nothing reads the time. -/

namespace Sys2Proof.Safety

open Sys2Proof.Machine

/-! ### Reset at a hang, and the state after reset -/

/-- A BUSY bridge takes a reset that is due; the write in flight leaves pins and latches open (R232, R246). -/
theorem step_busy_reset {s : State} {w : Word} {rs : List Nat} (hq : s.seq = .busy w) (hr : s.resets = 0 :: rs) :
    step s = .next (takeReset (disturb { s with resets := rs })) := by
  have htaken : resetTaken s = (true, { s with resets := rs }) := by simp only [resetTaken, hr]
  simp only [step, hq, waitForAnswer, htaken]

/-- Settles O14: the step is `takeReset` of the state with the write in flight disturbed. -/
theorem resetEndsAHang : Obligations.ResetEndsAHang := fun _ _ _ hq hr =>
  ⟨_, step_busy_reset hq hr, rfl, rfl, rfl, Memory.read_nil, rfl, rfl, takeReset_events _, rfl, rfl, rfl, rfl⟩

/-- Settles O54: the registers have their reset values and the event sequence is empty. -/
theorem resetMeetsTheInvariants : Obligations.ResetMeetsTheInvariants :=
  ⟨⟨rfl, by decide, by decide, rfl⟩, rfl, rfl⟩

/-! ### Reset inside a request -/

/-- The registers, the sequencer and the timer have the values of R230. -/
structure HasResetValues (t : State) : Prop where
  bl : t.bl = true
  initState : t.initState = 0
  initErr : t.initErr = false
  text : ∀ a, Memory.read t.text a = 0x00
  seq : t.seq = .idle
  timer : t.timer = none

theorem hasResetValues_takeReset (s : State) : HasResetValues (takeReset s) :=
  ⟨rfl, rfl, rfl, Memory.read_nil, rfl, rfl⟩

/-- An event inside a request: no reset and no response. -/
def IsInner (e : Event) : Prop := e ≠ .reset ∧ ∀ r, e ≠ .rsp r

/-- The events `es` were followed by inner ones alone. -/
def GoesOnFrom (es : List Event) (s : State) : Prop := ∃ fs, s.events = es ++ fs ∧ ∀ e ∈ fs, IsInner e

/-- The events `es` were followed by inner ones and then a reset, which gave the state its values. -/
def AbandonedAfter (es : List Event) (t : State) : Prop :=
  HasResetValues t ∧ ∃ fs, t.events = es ++ fs ++ [.reset] ∧ ∀ e ∈ fs, IsInner e

/-- No reset has taken effect since there were `n` assertions to come, and the request after the events `es` goes on. -/
def Uncut (es : List Event) (n : Nat) (s : State) : Prop := s.resets.length = n ∧ GoesOnFrom es s

/-- If one of the `n` assertions that were to come was used up, the request after the events `es` was abandoned. -/
def AbandonedIfReset (es : List Event) (n : Nat) (t : State) : Prop := t.resets.length < n → AbandonedAfter es t

theorem GoesOnFrom.event {es : List Event} {s t : State} {e : Event} (h : GoesOnFrom es s)
    (hevents : t.events = s.events ++ [e]) (he : IsInner e) : GoesOnFrom es t := by
  obtain ⟨fs, hfs, hinner⟩ := h
  refine ⟨fs ++ [e], by rw [hevents, hfs, List.append_assoc], fun x hx => ?_⟩
  obtain hx | hx := List.mem_append.mp hx
  · exact hinner x hx
  · exact List.mem_singleton.mp hx ▸ he

theorem GoesOnFrom.reset {es : List Event} {s : State} (h : GoesOnFrom es s) : AbandonedAfter es (takeReset s) := by
  obtain ⟨fs, hfs, hinner⟩ := h
  exact ⟨hasResetValues_takeReset s, fs, by rw [takeReset_events, hfs], hinner⟩

theorem Uncut.event {es : List Event} {n : Nat} {s t : State} {e : Event} (h : Uncut es n s)
    (hresets : t.resets.length = s.resets.length) (hevents : t.events = s.events ++ [e]) (he : IsInner e) :
    Uncut es n t := ⟨hresets.trans h.1, h.2.event hevents he⟩

/-- Where no assertion was used up, nothing is claimed. -/
theorem Uncut.ended {es : List Event} {n : Nat} {s t : State} (h : Uncut es n s)
    (hresets : t.resets.length = s.resets.length) : AbandonedIfReset es n t := fun hlt =>
  absurd (hresets.trans h.1) hlt.ne

/-- Every request goes on until it ends with no assertion used up, or a reset abandons it. -/
theorem closed_abandoned (i : Instr) (es : List Event) (n : Nat) :
    Closed i (Uncut es n) (Uncut es n) (AbandonedIfReset es n) where
  ok b _ _ _ hl h := h.event hl (landed_events b _) ⟨nofun, nofun⟩
  fail b _ _ _ hl h := h.event hl (recordWrite_events b .fail _) ⟨nofun, nofun⟩
  never _ _ _ _ hl h := h.ended hl
  reset s rs _ h _ := GoesOnFrom.reset (s := { s with resets := rs }) (or_self_iff.mp h).2
  cut b s rs _ _ h _ := by
    have hcut : GoesOnFrom es (disturb (recordOpenWrite b .cut { s with resets := rs })) :=
      h.2.event (recordOpenWrite_events b .cut _) ⟨nofun, nofun⟩
    exact hcut.reset
  waitOk d _ _ _ hl h := h.event hl (waited_events d _) ⟨nofun, nofun⟩
  waitFail d _ _ _ hl h := h.event hl (waited_events d _) ⟨nofun, nofun⟩
  answerOk _ _ _ _ _ hl h := h.ended hl
  answerFail _ _ _ _ hl h := h.ended hl
  answerIllegal _ _ _ hl h := h.ended hl
  initStart _ _ h := h
  initEnter _ _ _ _ _ h := h
  initAbort _ _ _ h := h
  text _ _ _ _ h := h

/-- Settles O15: what a reset does to a request holds wherever in it the reset takes effect (`closed_abandoned`). -/
theorem resetAbandonsTheRequest : Obligations.ResetAbandonsTheRequest := by
  intro i s t h hlt
  have hstart : Uncut s.events s.resets.length s := ⟨rfl, [], (List.append_nil _).symm, nofun⟩
  obtain ⟨hvalues, hevents⟩ := (closed_abandoned i s.events s.resets.length).exec hstart h hlt
  exact ⟨hvalues.bl, hvalues.initState, hvalues.initErr, hvalues.text, hvalues.seq, hvalues.timer, hevents⟩

/-! ### Requests with every write answered `ok` -/

/-- The events of INIT up to some complete steps. -/
theorem init_steps_events (steps : List InitStep) (s : State) :
    (afterSteps steps (afterDelay s.params.tPwrUs (beginInit s))).events =
      s.events ++ (waitEvents s.params.tPwrUs ++ initEvents s.params.slaveAddr (steps.map (initRow s.bl))) := by
  rw [afterSteps_rows, afterDelay_events, afterDelay_bl, afterDelay_params, List.append_assoc]
  rfl

/-- A request whose writes are all answered `ok` makes them all and answers OK. -/
theorem answers_ok {i : Instr} {s : State} (hi : i.wellFormed = true) (h : AllOk (requestBytes s i).length s) :
    AnswersAfter i s .ok (okWrites s.params.slaveAddr (requestBytes s i)) := by
  obtain hrun | rfl | rfl | ⟨idx, byte, rfl⟩ | rfl := exec_cases hi
  · have hwrite := writeAll_ok (s := withFlag i s) (requestBytes s i) (h.congr rfl rfl)
    exact .of_writeAll (hrun s) hwrite ((landedAll_resets _ _).trans h.1) (landedAll_events _ _)
      (writesAre_okWrites _ _)
  · exact .of_responded (exec_init_ok h) (init_steps_events (initSteps s.params) s)
      (writesAre_init s.params s.bl (initSteps s.params))
  · exact .of_responded (exec_print_ok (h.mono (textBytes_length _ _).ge)) (landedAll_events _ s)
      (writesAre_okWrites _ _)
  · exact .of_responded (exec_ldtxt idx byte h.1) (List.append_nil _).symm writesAre_nil
  · exact .of_responded (exec_status h.1) (List.append_nil _).symm writesAre_nil

/-- Settles O46: `answers_ok`, and the bytes of each request counted. -/
theorem everyRequestMakesItsWrites : Obligations.EveryRequestMakesItsWrites := by
  refine fun i s hi h => ⟨answers_ok hi h, ?_⟩
  cases i with
  | print => exact textBytes_length s.bl (printedText s)
  | _ => rfl

/-! ### Requests with a write that is never answered -/

/-- From `s` the request `i`, of the word `w`, makes the writes `ws`, gives no response and stays BUSY. -/
def HangsAfter (i : Instr) (s : State) (w : Word) (ws : List Event) : Prop :=
  ∃ t es, exec i s = .next t ∧ t.events = s.events ++ es ∧ es.filter isWrite = ws ∧ (∀ e ∈ es, ∀ r, e ≠ .rsp r) ∧
    t.seq = .busy w ∧ ∀ n, core.run n t = .next t

/-- The request goes no further at the unanswered write number `k` of a run that begins in the state `u`. -/
theorem HangsAfter.of_unanswered {i : Instr} {s u : State} {w : Word} {bs : List Byte} {k : Nat} {b : Byte}
    {es ws : List Event} (hb : bs[k]? = some b)
    (hexec : exec i s = .next (disturb (recordOpenWrite b .unanswered (landedAll (bs.take k) u))))
    (hq : u.seq = .busy w) (hr : u.resets = []) (hevents : u.events = s.events ++ es) (hes : WritesAre es ws) :
    HangsAfter i s w (ws ++ writesUpTo u.params.slaveAddr bs k .unanswered) := by
  have hbusy : (landedAll (bs.take k) u).seq = .busy w := (landedAll_seq _ u).trans hq
  have hquiet : (landedAll (bs.take k) u).resets = [] := (landedAll_resets _ u).trans hr
  have hall := hes.append (writesAre_writesUpTo u.params.slaveAddr bs k .unanswered)
  refine ⟨_, _, hexec, ?_, hall.writes, hall.noResponse, hbusy, fun n => hungBridgeStaysBusy n _ w hbusy hquiet⟩
  rw [disturb_events, recordOpenWrite_events, landedAll_events, landedAll_params, hevents, writesUpTo_eq .unanswered hb]
  simp only [List.append_assoc]

/-- INIT with a write of the step `st` never answered: the request goes no further (R246). -/
theorem exec_init_never {s : State} {pre post : List InitStep} {st : InitStep} {k : Nat} {b : Byte}
    (hsteps : initSteps s.params = pre ++ st :: post) (hb : (InitAction.bytes s.bl st.sends)[k]? = some b)
    (h : AnsweredAt ((stepsBytes s.bl pre).length + k) .never s) :
    exec .init s = .next (disturb (recordOpenWrite b .unanswered (landedAll ((InitAction.bytes s.bl st.sends).take k)
      (afterSteps pre (afterDelay s.params.tPwrUs (beginInit s)))))) := by
  have hbl : (afterDelay s.params.tPwrUs (beginInit s)).bl = s.bl := afterDelay_bl _ _
  have hanswered : AnsweredAt ((stepsBytes s.bl pre).length + k) .never (afterDelay s.params.tPwrUs (beginInit s)) :=
    h.congr (by simp) (by simp)
  rw [exec_init h.1, hsteps]
  rw [← hbl] at hb hanswered ⊢
  rw [runInit_never pre post hb hanswered]

theorem init_hangs {s : State} {k : Nat} {w : Word} (hq : s.seq = .busy w) (hk : k < (requestBytes s .init).length)
    (h : AnsweredAt k .never s) :
    HangsAfter .init s w (writesUpTo s.params.slaveAddr (requestBytes s .init) k .unanswered) := by
  obtain ⟨pre, st, post, m, hsteps, hm, rfl, hwrites⟩ := init_writes_split hk
  obtain ⟨b, hb⟩ := AnsweredAt.byte hm rfl
  have hparams : (afterSteps pre (afterDelay s.params.tPwrUs (beginInit s))).params = s.params := by simp
  have hhangs := HangsAfter.of_unanswered (w := w) hb (exec_init_never hsteps hb h) (by simpa using hq)
    (by simpa using h.1) (init_steps_events pre s) (writesAre_init s.params s.bl pre)
  rwa [hparams, ← hwrites] at hhangs

/-- A request whose write number `k` is the first not answered, and never is, hangs there. -/
theorem hangs_at_unanswered {i : Instr} {s : State} {k : Nat} {w : Word} (hi : i.wellFormed = true)
    (hq : s.seq = .busy w) (hk : k < (requestBytes s i).length) (h : AnsweredAt k .never s) :
    HangsAfter i s w (writesUpTo s.params.slaveAddr (requestBytes s i) k .unanswered) := by
  obtain ⟨b, hb⟩ := AnsweredAt.byte hk rfl
  obtain hrun | rfl | rfl | ⟨idx, byte, rfl⟩ | rfl := exec_cases hi
  · have hwrite := writeAll_never (s := withFlag i s) _ hb (h.congr rfl rfl)
    refine .of_unanswered (s := s) (u := withFlag i s) hb ?_ hq h.1 (List.append_nil _).symm writesAre_nil
    rw [hrun, writesThenWait, hwrite, Flow.bind_stop, respondResult_stop]
  · exact init_hangs hq hk h
  · refine .of_unanswered (u := s) hb ?_ hq h.1 (List.append_nil _).symm writesAre_nil
    rw [requestBytes, printedText_eq] at hb ⊢
    exact congrArg Host.Outcome.next (printFrom_never s.params.textLen 0 hb h)
  · cases hk
  · cases hk

/-- Settles O48: the request goes no further (`hangs_at_unanswered`), and a BUSY bridge with no reset asserted stays as
it is (`hungBridgeStaysBusy`). -/
theorem unansweredWriteHangsTheBridge : Obligations.UnansweredWriteHangsTheBridge := fun _ _ _ _ hi hq hk h =>
  hangs_at_unanswered hi hq hk h

/-! ### States that differ in their times alone -/

/-- The states differ in the time and in the times of their events alone. -/
def SameButTime (s t : State) : Prop :=
  ∃ log now, t = { s with log := log, now := now } ∧ log.map Timed.event = s.events

/-- Besides, the text buffer is `a` in both. -/
def SameButTimeWith (a : Memory) (s t : State) : Prop := s.text = a ∧ SameButTime s t

theorem SameButTime.inputs {s t : State} (h : SameButTime s t) : SameInputs s t := by
  obtain ⟨_, _, rfl, _⟩ := h
  exact ⟨rfl, rfl, rfl⟩

theorem SameButTime.params {s t : State} (h : SameButTime s t) : t.params = s.params := by
  obtain ⟨_, _, rfl, _⟩ := h
  rfl

theorem SameButTimeWith.texts {a : Memory} {s t : State} (h : SameButTimeWith a s t) : s.text = a ∧ t.text = a := by
  obtain ⟨ha, _, _, rfl, _⟩ := h
  exact ⟨ha, ha⟩

/-! ### Updates that do not read the time -/

/-- From states that differ in their times alone, the update `f` gives such states. -/
def TimeBlind (f : State → State) : Prop :=
  ∀ (s : State) (log : List Timed) (now : Nat), log.map Timed.event = s.events →
    SameButTime (f s) (f { s with log := log, now := now })

theorem SameButTime.map {s t : State} {f : State → State} (h : SameButTime s t) (hf : TimeBlind f) :
    SameButTime (f s) (f t) := by
  obtain ⟨log, now, rfl, hlog⟩ := h
  exact hf s log now hlog

theorem timeBlind_setResets (rs : List Nat) : TimeBlind fun s => { s with resets := rs } :=
  fun _ log now h => ⟨log, now, rfl, h⟩

theorem timeBlind_disturb : TimeBlind disturb := fun _ log now h => ⟨log, now, rfl, h⟩

theorem timeBlind_withFlag (i : Instr) : TimeBlind (withFlag i) := fun _ log now h => ⟨log, now, rfl, h⟩

theorem timeBlind_beginInit : TimeBlind beginInit := fun _ log now h => ⟨log, now, rfl, h⟩

theorem timeBlind_enterInit (k : BitVec 4) : TimeBlind (enterInit k) := fun _ log now h => ⟨log, now, rfl, h⟩

theorem timeBlind_abortInit : TimeBlind abortInit := fun _ log now h => ⟨log, now, rfl, h⟩

theorem timeBlind_storeText (idx : BitVec 4) (byte : Byte) : TimeBlind (storeText idx byte) :=
  fun _ log now h => ⟨log, now, rfl, h⟩

/-- As every event added, the reset's mark differs in its times alone. -/
theorem timeBlind_takeReset : TimeBlind takeReset := fun _ _ _ h => ⟨_, _, rfl, by simp [h]⟩

theorem timeBlind_recordWrite (b : Byte) (e : WriteEnd) : TimeBlind (recordWrite b e) :=
  fun _ _ _ h => ⟨_, _, rfl, by simp [h]⟩

theorem timeBlind_recordOpenWrite (b : Byte) (e : WriteEnd) : TimeBlind (recordOpenWrite b e) :=
  fun _ _ _ h => ⟨_, _, rfl, by simp [h]⟩

theorem timeBlind_landed (b : Byte) : TimeBlind (landed b) := fun _ _ _ h => ⟨_, _, rfl, by simp [h]⟩

theorem timeBlind_waited (d : Nat) : TimeBlind (waited d) := fun _ _ _ h => ⟨_, _, rfl, by simp [h]⟩

theorem timeBlind_responded (c : Code) (d : Byte) : TimeBlind (responded c d) :=
  fun _ _ _ h => ⟨_, _, rfl, by simp [h]⟩

/-! ### Requests at another time -/

/-- No primitive of R10 reads the time. -/
theorem simulation_time (a : Memory) : Simulation (SameButTimeWith a) SameButTime where
  write b s t := by
    rintro ⟨ha, h⟩
    have hinput := fun rs => h.map (timeBlind_setResets rs)
    obtain ⟨rs, -, ⟨hs, ht⟩ | ⟨hs, ht⟩ | ⟨hs, ht⟩⟩ | ⟨rs, -, ⟨hs, ht⟩ | ⟨hs, ht⟩⟩ :=
      transportWrite_cases_both b h.inputs <;> rw [hs, ht]
    · exact ⟨rfl, ha, (hinput rs).map (timeBlind_landed b)⟩
    · exact ⟨rfl, ha, ((hinput rs).map (timeBlind_recordWrite b .fail)).map timeBlind_disturb⟩
    · exact ((hinput rs).map (timeBlind_recordOpenWrite b .unanswered)).map timeBlind_disturb
    · exact (hinput rs).map timeBlind_takeReset
    · exact (((hinput rs).map (timeBlind_recordOpenWrite b .cut)).map timeBlind_disturb).map timeBlind_takeReset
  delay d s t := by
    rintro ⟨ha, h⟩
    have hinput := fun rs => h.map (timeBlind_setResets rs)
    obtain ⟨_, hs, ht⟩ | ⟨rs, -, hs, ht⟩ | ⟨rs, -, hs, ht⟩ := delay_cases_both d h.inputs.1 <;> rw [hs, ht]
    · exact ⟨rfl, ha, h⟩
    · exact ⟨rfl, ha, (hinput rs).map (timeBlind_waited d)⟩
    · exact (hinput rs).map timeBlind_takeReset
  respond c d s t := by
    rintro ⟨_, h⟩
    have hinput := fun rs => h.map (timeBlind_setResets rs)
    obtain ⟨rs, -, hs, ht⟩ | ⟨rs, -, hs, ht⟩ := respond_cases_both c d h.inputs.1 <;> rw [hs, ht]
    · exact (hinput rs).map (timeBlind_responded c d)
    · exact (hinput rs).map timeBlind_takeReset
  bl := by
    rintro s _ ⟨_, _, _, rfl, _⟩
    rfl

section Simulation

variable {P E : State → State → Prop}

theorem Simulation.writesThenWait (S : Simulation P E) (bs : List Byte) (d : Nat) {s t : State} (h : P s t) :
    Flow.Rel P E (Safety.writesThenWait bs d s) (Safety.writesThenWait bs d t) :=
  (S.writeAll bs h).bind fun _ s t h => (S.delay d s t h).bind fun _ _ _ h => ⟨rfl, h⟩

/-- The loop of INIT, where entering a state of its sequence and aborting keep the relation. -/
theorem Simulation.runInit (S : Simulation P E) (henter : ∀ k s t, P s t → P (enterInit k s) (enterInit k t))
    (habort : ∀ s t, P s t → P (abortInit s) (abortInit t)) (steps : List InitStep) :
    ∀ {s t : State}, P s t → E (Machine.runInit steps s) (Machine.runInit steps t) := by
  induction steps with
  | nil => exact fun h => S.respond _ _ _ _ (henter 9 _ _ h)
  | cons st steps ih =>
    intro s t h
    simp only [Machine.runInit, initStep, sendInit_eq, S.bl s t h]
    refine ((S.writeAll _ h).bind fun r s t h => ?_).finish fun r s t h => ?_
    · have hentered : P (if r then enterInit st.enters s else s) (if r then enterInit st.enters t else t) := by
        cases r with
        | true => exact henter st.enters s t h
        | false => exact h
      exact (S.delay st.wait _ _ hentered).bind fun _ _ _ h => ⟨rfl, h⟩
    · cases r with
      | true => exact ih h
      | false => exact S.respond _ _ _ _ (habort s t h)

end Simulation

theorem init_sameButTime {s t : State} (h : SameButTime s t) :
    ∃ u v, exec .init s = .next u ∧ exec .init t = .next v ∧ SameButTime u v := by
  have S := simulation_time s.text
  have hbegin : SameButTimeWith s.text (beginInit s) (beginInit t) := ⟨rfl, h.map timeBlind_beginInit⟩
  refine ⟨_, _, rfl, rfl, ?_⟩
  rw [h.params]
  refine (S.delay s.params.tPwrUs _ _ hbegin).finish fun _ u v huv => ?_
  rw [huv.2.params]
  exact S.runInit (fun k _ _ h => ⟨h.1, h.2.map (timeBlind_enterInit k)⟩)
    (fun _ _ h => ⟨h.1, h.2.map timeBlind_abortInit⟩) _ huv

/-- From states that differ in their times alone, every request ends in such states. -/
theorem exec_sameButTime {s t : State} (h : SameButTime s t) (i : Instr) :
    ∃ u v, exec i s = .next u ∧ exec i t = .next v ∧ SameButTime u v := by
  have S := simulation_time s.text
  by_cases hi : i.wellFormed = true
  · obtain hrun | rfl | rfl | ⟨idx, byte, rfl⟩ | rfl := exec_cases hi
    · have hflag : SameButTimeWith s.text (withFlag i s) (withFlag i t) := ⟨rfl, h.map (timeBlind_withFlag i)⟩
      refine ⟨_, _, hrun s, hrun t, ?_⟩
      obtain ⟨log, now, rfl, hlog⟩ := h
      exact S.respondResult (S.writesThenWait _ _ hflag)
    · exact init_sameButTime h
    · refine ⟨_, _, rfl, rfl, ?_⟩
      rw [h.params]
      exact S.printFrom (fun _ _ h => h.texts) _ 0 rfl ⟨rfl, h⟩
    · exact ⟨_, _, rfl, rfl, (simulation_time _).respond .ok 0 _ _ ⟨rfl, h.map (timeBlind_storeText idx byte)⟩⟩
    · refine ⟨_, _, rfl, rfl, ?_⟩
      obtain ⟨log, now, rfl, hlog⟩ := h
      exact S.respond .ok (statusByte s) _ _ ⟨rfl, log, now, rfl, hlog⟩
  · exact ⟨_, _, exec_not_wellFormed hi s, exec_not_wellFormed hi t, S.respond .illegal 0 _ _ ⟨rfl, h⟩⟩

/-- Settles O49: the two states before the request differ in the time alone, and so do the two after it. -/
theorem timeIsNeverRead : Obligations.TimeIsNeverRead := by
  intro i s t n h
  have hstart : SameButTime s { s with now := n } := ⟨s.log, n, rfl, rfl⟩
  obtain ⟨u, v, hu, hv, log, now, rfl, hlog⟩ := exec_sameButTime hstart i
  cases h.symm.trans hu
  exact ⟨log, now, hv, hlog⟩

end Sys2Proof.Safety
